-- ==== Sys2Proof/Word.lean ====
section
/-!
DEFINITION. The word types of the block: a 32-bit interface register (10_state R22), a byte of a platform's
bus (20_memory R51), and a binary64 value held by its 64 bits (42_neighbor_averaging_pipeline R120).
-/
namespace Sys2Proof

/-- An interface register or a command word: 32 bits (R22, R70). -/
abbrev Word := BitVec 32

/-- One byte of a platform's byte-addressed bus (R51). The block itself never sees bytes. -/
abbrev Byte := BitVec 8

/-- An IEEE 754 binary64 value, by its bit pattern: sign, 11-bit biased exponent, 52-bit fraction (R120, R122). -/
abbrev Binary64 := BitVec 64

end Sys2Proof
end

