-- ==== Sys2Proof/Machine/Binary64.lean ====
section
/-!
DEFINITION. The arithmetic of the mean (42_neighbor_averaging_pipeline R120 to R123): binary64 values by their bits,
rounding to nearest with ties to even, f64 and Mean.
-/
namespace Sys2Proof.Machine

/-- The number of halvings of 1 in the least positive binary64 value, 2^−1074: every finite value is a whole number
of these units (R120, R122). Irreducible, so that no elaborator expands 2^1074; the kernel still evaluates it. -/
@[irreducible] def unitExponent : Nat := 1074

/-- num / den to the nearest natural, ties to even (R121). -/
def roundEven (num den : Nat) : Nat :=
  let q := num / den
  let r := num % den
  if 2 * r < den then q
  else if den < 2 * r then q + 1
  else q + q % 2

/-- rnd64(num / den) of R121 for den > 0. Counted in units of 2^−1074 the quotient has its leading bit at place
L; the 53 bits from there down are kept, so the significand is a multiple of 2^u with u = L − 52 (0 for a
subnormal), and u·2^52 plus the rounded significand is the bit pattern (a carry out of the significand moves into the
exponent field by itself). A quotient that rounds beyond the largest finite value gives infinity (IEEE 754). -/
@[irreducible] def rnd64 (num den : Nat) : Binary64 :=
  let t := num * 2 ^ unitExponent
  let u := (t / den).log2 - 52
  BitVec.ofNat 64 (min (u * 2 ^ 52 + roundEven t (den * 2 ^ u)) 0x7FF0000000000000)

/-- f64(v) of R9 and R121: the binary64 value equal to the natural v (exact for v < 2^53). -/
def f64 (v : Nat) : Binary64 := rnd64 v 1

/-- Mean(S, n) of R121. -/
def mean (sum n : Nat) : Binary64 := rnd64 sum n

/-- The sign, biased exponent and fraction fields of a binary64 pattern (R122). -/
def binary64Sign (b : Binary64) : BitVec 1 := b.extractLsb' 63 1
def binary64Exponent (b : Binary64) : Nat := (b.extractLsb' 52 11).toNat
def binary64Fraction (b : Binary64) : Nat := (b.extractLsb' 0 52).toNat

/-- Neither infinite nor NaN, and not negative: what every element is (R35). -/
def binary64Finite (b : Binary64) : Bool := binary64Sign b == 0 && binary64Exponent b != 2047

/-- The value of a finite non-negative binary64 pattern, in units of 2^−1074 (R120, R122). -/
def binary64Units (b : Binary64) : Nat :=
  if binary64Exponent b = 0 then binary64Fraction b
  else (2 ^ 52 + binary64Fraction b) * 2 ^ (binary64Exponent b - 1)

end Sys2Proof.Machine
end

