-- ==== Sys2Proof/Config.lean ====
section
/-!
DEFINITION. The parameters of 00_scope R7 (configuration, fixed for the life of a model instance: 10_state R39).
`Params` is one assignment of values; `Config.params` is the machine's own, in which every parameter the spec
leaves OPEN is an opaque constant, so that a statement about the machine holds for every value of it.
-/
namespace Sys2Proof

/-- SUB_G_MODE (R7, R101): how the subsampled green is formed. Decided EXACT (D9). -/
inductive SubGMode where
  | exact
  | truncate
  deriving DecidableEq, Repr, Inhabited

/-- CORNER_G_AT_R and CORNER_G_AT_B (R7, R116): which green neighbour a corner copies. -/
inductive CornerChoice where
  | vertical
  | horizontal
  deriving DecidableEq, Repr, Inhabited

/-- DUP_TARGET (R7, R118): which interior diagonal average the DUP variant alters. -/
inductive DupTarget where
  /-- the blue channel at an R site -/
  | bAtR
  /-- the red channel at a B site -/
  | rAtB
  deriving DecidableEq, Repr, Inhabited

/-- DUP_PAIR (R7, R118): one of the six unordered pairs of distinct diagonal offsets. North is row offset −1 and
west column offset −1: `nwNe` is the pair (−1,−1), (−1,+1). -/
inductive DupPair where
  | nwNe
  | nwSw
  | nwSe
  | neSw
  | neSe
  | swSe
  deriving DecidableEq, Repr, Inhabited

/-- HOST_BYTE_ORDER (R7, R51): byte order of a host bus carrying register words. -/
inductive ByteOrder where
  | little
  | big
  deriving DecidableEq, Repr, Inhabited

/-- One value for every parameter of R7. -/
structure Params where
  /-- SAMPLE_BITS -/
  sampleBits : Nat
  /-- MAX_NY -/
  maxNy : Nat
  /-- MAX_NX -/
  maxNx : Nat
  /-- SUB_G_MODE -/
  subGMode : SubGMode
  /-- CORNER_G_AT_R -/
  cornerGAtR : CornerChoice
  /-- CORNER_G_AT_B -/
  cornerGAtB : CornerChoice
  /-- DUP_TARGET -/
  dupTarget : DupTarget
  /-- DUP_PAIR -/
  dupPair : DupPair
  /-- HOST_BYTE_ORDER -/
  hostByteOrder : ByteOrder
  /-- REG_BASE -/
  regBase : Nat
  deriving DecidableEq, Repr

/-- The values R7 admits. The bound below 2^32 on MAX_NY and MAX_NX is DEDUCED (assumption 9): NY and NX hold
the loaded shape as 32-bit unsigned numbers (R27, R28). -/
abbrev Params.Legal (p : Params) : Prop :=
  (1 ≤ p.sampleBits ∧ p.sampleBits ≤ 32) ∧
  (4 ≤ p.maxNy ∧ p.maxNy % 2 = 0 ∧ p.maxNy < 2 ^ 32) ∧
  (4 ≤ p.maxNx ∧ p.maxNx % 2 = 0 ∧ p.maxNx < 2 ^ 32)

/-! The OPEN parameters (assumption 4): opaque, with no body, so no proof can see a value. -/

/-- SAMPLE_BITS − 1, so that 1 ≤ SAMPLE_BITS ≤ 32 (R7, D6). -/
opaque Config.sampleBitsLessOne : Fin 32

/-- MAX_NY / 2 − 2, so that MAX_NY is even, at least 4 and below 2^32 (R7, D7, assumption 9). -/
opaque Config.maxNyHalvesLessTwo : Fin 2147483646

/-- MAX_NX / 2 − 2, likewise. -/
opaque Config.maxNxHalvesLessTwo : Fin 2147483646

/-- CORNER_G_AT_R (R7, D11). -/
opaque Config.cornerGAtR : CornerChoice

/-- CORNER_G_AT_B (R7, D11). -/
opaque Config.cornerGAtB : CornerChoice

/-- DUP_TARGET (R7, D12). -/
opaque Config.dupTarget : DupTarget

/-- DUP_PAIR (R7, D12). -/
opaque Config.dupPair : DupPair

/-- HOST_BYTE_ORDER (R7, D15). -/
opaque Config.hostByteOrder : ByteOrder

/-- REG_BASE (R7, D2): any address. -/
opaque Config.regBase : Nat

/-- A free value (assumption 6): given the indices of the out-of-range samples of a frame, which of them
SAMPLE_OUT_OF_RANGE records ("some v[i]", R150); used modulo their number. -/
opaque Config.outOfRangePick : List Nat → Nat

/-- The machine's parameters: SUB_G_MODE as decided (D9, assumption 5), every OPEN one opaque. -/
def Config.params : Params where
  sampleBits := Config.sampleBitsLessOne.val + 1
  maxNy := 2 * (Config.maxNyHalvesLessTwo.val + 2)
  maxNx := 2 * (Config.maxNxHalvesLessTwo.val + 2)
  subGMode := .exact
  cornerGAtR := Config.cornerGAtR
  cornerGAtB := Config.cornerGAtB
  dupTarget := Config.dupTarget
  dupPair := Config.dupPair
  hostByteOrder := Config.hostByteOrder
  regBase := Config.regBase

end Sys2Proof
end

