-- ==== Sys2Proof/Syntax.lean ====
section
/-!
DEFINITION. The syntax: the three commands of the opcode table (30_encoding R74), the host's actions and the
events of a trace (30_encoding R79, R80; 44_external_interface R150 to R155).
-/
namespace Sys2Proof

/-- The commands, one constructor per row of the opcode table (R74). No command has an operand in its word: the
frame, its shape and the output buffer are implicit (R77). -/
inductive Instr where
  /-- DECODE_SUBSAMPLED (R100) -/
  | decodeSubsampled
  /-- DECODE_FULL (R130) -/
  | decodeFull
  /-- DECODE_FULL_DUP (R131) -/
  | decodeFullDup
  deriving DecidableEq, Repr

/-- What HOST can do in one atomic step (R150 to R154), and the same register accesses carried over a platform's
byte-addressed bus (R51, R54, R56). -/
inductive HostAction where
  /-- LOAD_FRAME ny, nx, v (R150); `v` in row-major order. -/
  | loadFrame (ny nx : Nat) (v : List Nat)
  /-- WRITE n, w by register number (R151, R152). -/
  | write (n : Nat) (w : Word)
  /-- READ n by register number (R153). -/
  | read (n : Nat)
  /-- READ_OUT r, c, k (R154). -/
  | readOut (r c k : Nat)
  /-- A bus write of these bytes, the first at the lowest address (R54). -/
  | busWrite (addr : Nat) (bytes : List Byte)
  /-- A bus read of `size` bytes (R54). -/
  | busRead (addr size : Nat)
  deriving DecidableEq, Repr

/-- One entry of a trace (R79): whose turn it is, and for HOST what it does. -/
inductive Event where
  /-- HOST's turn. -/
  | host (a : HostAction)
  /-- `<engine>`: ENGINE's turn (R155). -/
  | engine
  /-- `<reset>`: a reset event (R190). -/
  | reset
  /-- WAIT (R80): READ STATUS until STATE ≠ BUSY; while BUSY, ENGINE takes its step after `spins` reads (any
  finite number, R159). -/
  | wait (spins : Nat)
  /-- The tail of a call of the source (R80): READ STATUS and, if DONE, READ_OUT of every element of a
  `rows` × `cols` image. -/
  | readBack (rows cols : Nat)
  deriving DecidableEq, Repr

end Sys2Proof
end

