-- ==== Sys2Proof/WellFormed.lean ====
section
/-!
DEFINITION. What a well-formed command and a well-formed host action are: the checks that need no state. A host
action that fails one is still executed, and records a host fault (60_exceptions R178).
-/
namespace Sys2Proof

/-- A command word carries no operand (R77), so every command is well formed. -/
def Instr.wellFormed : Instr → Bool
  | .decodeSubsampled => true
  | .decodeFull => true
  | .decodeFullDup => true

/-- A whole register access on the bus (R54): four bytes at REG_BASE + 4·n for some n. -/
def busAligned (p : Params) (addr size : Nat) : Bool :=
  size == 4 && decide (p.regBase ≤ addr) && (addr - p.regBase) % 4 == 0

/-- What R161 says HOST must send, as far as it does not depend on the state. -/
def HostAction.wellFormed (p : Params) : HostAction → Bool
  | .loadFrame ny nx v =>
    decide (ny ≤ p.maxNy) && decide (nx ≤ p.maxNx) && v.length == ny * nx && v.all (· < 2 ^ p.sampleBits)
  | .write n _ => n == 0
  | .read n => decide (n < 4)
  | .readOut _ _ k => decide (k < 3)
  | .busWrite addr bytes => busAligned p addr bytes.length && addr == p.regBase
  | .busRead addr size => busAligned p addr size && decide ((addr - p.regBase) / 4 < 4)

/-- Well-formed events: their host action is. -/
def Event.wellFormed (p : Params) : Event → Bool
  | .host a => a.wellFormed p
  | .engine => true
  | .reset => true
  | .wait _ => true
  | .readBack _ _ => true

end Sys2Proof
end

