-- ==== Sys2Proof/Decode.lean ====
section
/-!
DEFINITION. The command word (30_encoding R70 to R77): its fields, the decoder, total on every word and rejecting
by name (R75), and the encoder written from the same table (R71).
-/
namespace Sys2Proof

/-- OP, bits[1:0] (R71). -/
def fieldOp (w : Word) : BitVec 2 := w.extractLsb' 0 2

/-- DUP, bit[2] (R71). -/
def fieldDup (w : Word) : BitVec 1 := w.extractLsb' 2 1

/-- RSVD, bits[31:3] (R71). -/
def fieldRsvd (w : Word) : BitVec 29 := w.extractLsb' 3 29

/-- Why a word is reserved (R75). Every one of them is RESERVED of R74 and ends in INVALID_COMMAND. -/
inductive Reserved where
  /-- a non-zero bit in [31:3] -/
  | reservedBits
  /-- OP = 0b00 or 0b11: selects nothing (R72) -/
  | noOperation
  /-- OP = 0b01 with DUP = 1 -/
  | dupWithSubsampled
  deriving DecidableEq, Repr

/-- Decode of R74, by the fields of R71 to R73. -/
def decode (w : Word) : Except Reserved Instr :=
  if fieldRsvd w ≠ 0 then .error .reservedBits
  else if fieldOp w = 0b01 then
    if fieldDup w = 0 then .ok .decodeSubsampled else .error .dupWithSubsampled
  else if fieldOp w = 0b10 then
    if fieldDup w = 0 then .ok .decodeFull else .ok .decodeFullDup
  else .error .noOperation

/-- The OP and DUP fields of a command (R71, R74). -/
def encodeFields : Instr → BitVec 2 × BitVec 1
  | .decodeSubsampled => (0b01, 0)
  | .decodeFull => (0b10, 0)
  | .decodeFullDup => (0b10, 1)

/-- The word of a command: RSVD = 0, then DUP, then OP (R71). -/
def encode (i : Instr) : Word :=
  (0 : BitVec 29) ++ (encodeFields i).2 ++ (encodeFields i).1

/-- The instruction the decoder reads from `nbits` table bits (30_encoding R70: every command is exactly one
32-bit word, so a number with a bit above bit 31 is no command). -/
def decodeTableWord (nbits w : Nat) : Option Instr :=
  if w % 2 ^ nbits < 2 ^ 32 then (decode (BitVec.ofNat 32 (w % 2 ^ nbits))).toOption else none

end Sys2Proof
end

