-- ==== Sys2Proof/Machine/State.lean ====
section
/-!
DEFINITION. The state of the block as plain data (10_state), the reasons a step can stop, and the state after reset
(10_state R40, 70_reset_and_hazards R190).
-/
namespace Sys2Proof.Machine

/-- A RawFrame (R30): a shape and its samples in row-major order, sample (r, c) at index r·nx + c (R52). -/
structure Frame where
  ny : Nat
  nx : Nat
  samples : List Nat
  deriving DecidableEq, Repr

/-- The kind of an image (R32). -/
inductive ImageKind where
  | sub
  | full
  deriving DecidableEq, Repr

/-- One element of an image: a binary64 value by its bits (R34 EXACT, R35), or a natural number (R34 TRUNCATE). -/
inductive Element where
  | f64 (b : Binary64)
  | nat (n : Nat)
  deriving DecidableEq, Repr

/-- An image (R32): a kind, a shape (rows, cols, 3) and its elements, element (r, c, k) at index
(r·cols + c)·3 + k (R53). -/
structure Image where
  kind : ImageKind
  rows : Nat
  cols : Nat
  elems : List Element
  deriving DecidableEq, Repr

/-- The two buffer spaces (R50): IN and OUT, each possibly holding nothing (R30, R32). -/
structure Memory where
  /-- IN -/
  frame : Option Frame
  /-- OUT -/
  image : Option Image
  deriving DecidableEq, Repr

/-- The host faults of R178, with the information each records. They are entries of the fault record, not stops. -/
inductive HostFault where
  | loadWhileBusy
  | frameTooLarge (ny nx : Nat)
  | frameShape (ny nx len : Nat)
  | sampleOutOfRange (i : Nat)
  | cmdWhileBusy (w : Word)
  | noFrame (w : Word)
  | writeReadOnly (n : Nat)
  | noSuchRegister (n : Nat)
  | badRegisterAccess (addr : Nat)
  | outNotReady (r c k : Nat)
  | outIndexRange (r c k : Nat)
  deriving DecidableEq, Repr

/-- A value handed back to HOST (R161). -/
inductive Reply where
  /-- READ n returned w (R153). -/
  | register (n : Nat) (w : Word)
  /-- READ_OUT r, c, k returned e (R154). -/
  | element (r c k : Nat) (e : Element)
  /-- A bus read at this address returned these bytes (R51). -/
  | bus (addr : Nat) (bytes : List Byte)
  deriving DecidableEq, Repr

/-- The machine's state. The first six fields are the spec's (R22 to R38); `pending` and `replies` are the
model's own, HOST's side of the interface (assumptions 1 and 2). -/
structure State where
  /-- Register 0, CMD (R23). -/
  cmd : Word
  /-- Register 1, STATUS (R24 to R26). -/
  status : Word
  /-- Register 2, NY (R27). -/
  ny : Word
  /-- Register 3, NX (R28). -/
  nx : Word
  /-- IN and OUT (R30 to R35). -/
  mem : Memory
  /-- The fault record, oldest first (R38). -/
  faults : List HostFault
  /-- The events still to come, next first: the interleaving of the agents (R60). -/
  pending : List Event
  /-- The values handed back to HOST, oldest first. -/
  replies : List Reply
  deriving DecidableEq, Repr

/-- Why a step stops. Each is safe: the model stops where the spec gives no value, and in no state that meets the
invariant of Safety.lean does any arise (assumption 3). -/
inductive Fault where
  /-- Raised by a command's meaning when IN holds no frame (R156: a missing frame cannot reach the step). Safe. -/
  | noFrameInEngine
  /-- Raised by a command's meaning when a sample it reads is not in the frame space (R58). Safe. -/
  | sampleOutsideFrame
  /-- Raised by READ_OUT when the image lists no element at an index inside its shape (R157: it is fully
  populated). Safe. -/
  | elementOutsideImage
  deriving DecidableEq, Repr

/-- Why an instruction has no meaning. No arm of exec uses it: every command is modelled. Safe. -/
inductive Refusal where
  /-- Raised by exec for an instruction not modelled yet. Safe. -/
  | notModelled (mnemonic : String)
  deriving DecidableEq, Repr

/-- The machine right after reset (R40, R190): the initial state, with an empty fault record. -/
def State.reset : State where
  cmd := 0
  status := 0
  ny := 0
  nx := 0
  mem := { frame := none, image := none }
  faults := []
  pending := []
  replies := []

end Sys2Proof.Machine
end

