-- ==== Sys2Proof/Machine/Flags.lean ====
section
/-!
DEFINITION. The STATUS word (10_state R24 to R26, 30_encoding R76): its fields, and the words the block writes. The
block has no other flag (10_state R36).
-/
namespace Sys2Proof.Machine

/-- The values of STATUS.STATE (R24). -/
inductive SeqState where
  | idle
  | busy
  | done
  | error
  deriving DecidableEq, Repr

/-- The errors a command can report (R170). -/
inductive CommandError where
  | invalidGrid
  | invalidCommand
  deriving DecidableEq, Repr

/-- STATUS.STATE, bits[1:0] (R24). -/
def statusState (w : Word) : SeqState :=
  if w.extractLsb' 0 2 = 0 then .idle
  else if w.extractLsb' 0 2 = 1 then .busy
  else if w.extractLsb' 0 2 = 2 then .done
  else .error

/-- STATUS.ERR, bits[7:4] (R25). -/
def statusErr (w : Word) : BitVec 4 := w.extractLsb' 4 4

/-- What a read of STATUS returns: the reserved bits[3:2] and bits[31:8] read as 0 (R26). -/
def statusRead (w : Word) : Word := w &&& 0x000000F3

/-- STATUS of an accepted command: STATE = BUSY, ERR = NONE (R151). -/
def statusBusy : Word := 0x00000001

/-- STATUS of a completed command: STATE = DONE, ERR = NONE (R157). -/
def statusDone : Word := 0x00000002

/-- code(e) of R158. -/
def CommandError.code : CommandError → Word
  | .invalidGrid => 1
  | .invalidCommand => 2

/-- STATUS of a command that ended in an error: (code(e) << 4) | 3 (R158). -/
def statusError (e : CommandError) : Word := e.code <<< 4 ||| 3

end Sys2Proof.Machine
end

