-- ==== Sys2Proof/Machine/Operands.lean ====
section
/-!
DEFINITION. The operand of every command, the grid in IN (30_encoding R77), and the CFA grid model over it
(40_cfa_grid_model): reading a sample, the role of a pixel, native channels, index partitions, shape checks.
-/
namespace Sys2Proof.Machine

/-- The CFA roles (R12, R90). -/
inductive Role where
  | g1
  | r
  | b
  | g2
  deriving DecidableEq, Repr

/-- The output channels (R33). -/
inductive Channel where
  | r
  | g
  | b
  deriving DecidableEq, Repr

/-- Channel index k: 0 is R, 1 is G, 2 is B (R33). -/
def Channel.index : Channel → Nat
  | .r => 0
  | .g => 1
  | .b => 2

/-- The channel of an index k < 3. -/
def Channel.ofIndex : Nat → Channel
  | 0 => .r
  | 1 => .g
  | _ => .b

/-- The role lookup table ROLE of R92. -/
def roleTable : Nat → Role
  | 0 => .g1
  | 1 => .r
  | 2 => .b
  | _ => .g2

/-- role(r, c) = ROLE[2·(r mod 2) + (c mod 2)] (R90, R92). -/
def role (r c : Nat) : Role := roleTable (2 * (r % 2) + c % 2)

/-- The channel a role samples (R91). -/
def native : Role → Channel
  | .r => .r
  | .g1 => .g
  | .g2 => .g
  | .b => .b

/-- Even(n) of R93. -/
def evenIndices (n : Nat) : List Nat := (List.range (n / 2)).map (2 * ·)

/-- Odd(n) of R93. -/
def oddIndices (n : Nat) : List Nat := (List.range (n / 2)).map (2 * · + 1)

/-- CheckGridSub of R94: the error it raises, if any. -/
def checkGridSub (ny nx : Nat) : Option CommandError :=
  if ny % 2 ≠ 0 ∨ nx % 2 ≠ 0 then some .invalidGrid else none

/-- CheckGridFull of R95. -/
def checkGridFull (ny nx : Nat) : Option CommandError :=
  if ny % 2 ≠ 0 ∨ nx % 2 ≠ 0 then some .invalidGrid
  else if ny < 4 ∨ nx < 4 then some .invalidGrid
  else none

/-- InBounds(r', c') of R113, for integer positions. -/
def inBounds (ny nx : Nat) (r c : Int) : Bool :=
  decide (0 ≤ r) && decide (r < (ny : Int)) && decide (0 ≤ c) && decide (c < (nx : Int))

/-- MemRead(IN, i, 1) of R9: element i of the frame space, if there is one. -/
def Frame.element (f : Frame) (i : Nat) : Option Nat := f.samples[i]?

/-- IN[r][c] (R9, R52): element r·nx + c, if the position is inside the frame. There is no value outside it:
no padding, no wrapping (R58). -/
def Frame.sample (f : Frame) (r c : Int) : Option Nat :=
  if inBounds f.ny f.nx r c then f.element (r.toNat * f.nx + c.toNat) else none

/-- OUT[r][c][k] (R9, R53): element (r·cols + c)·3 + k of the output space. -/
def Image.element (img : Image) (r c k : Nat) : Option Element := img.elems[(r * img.cols + c) * 3 + k]?

/-- All of a list of results, or none if one of them is missing. -/
def allSome {α : Type} : List (Option α) → Option (List α)
  | [] => some []
  | none :: _ => none
  | some x :: t => (allSome t).map (x :: ·)

/-- A fully populated image (R157), each element computed from its own (r, c, k) (R11), laid out as R53 says. -/
def buildImage (kind : ImageKind) (rows cols : Nat) (elem : Nat → Nat → Channel → Option Element) : Option Image :=
  (allSome ((List.range (rows * cols * 3)).map
    fun i => elem (i / 3 / cols) (i / 3 % cols) (Channel.ofIndex (i % 3)))).map
    fun es => { kind := kind, rows := rows, cols := cols, elems := es }

/-- A frame whose list holds exactly the samples of its shape, each below 2^SAMPLE_BITS, within the capacity
(R30). -/
def Frame.wf (p : Params) (f : Frame) : Bool :=
  decide (f.ny ≤ p.maxNy) && decide (f.nx ≤ p.maxNx) && f.samples.length == f.ny * f.nx &&
    f.samples.all (fun v => decide (v < 2 ^ p.sampleBits))

/-- An element between 0 and 2^SAMPLE_BITS − 1, finite and in the representation of its image's kind
(R34, R35): a natural only in a SUB image under TRUNCATE. -/
def Element.wf (p : Params) (kind : ImageKind) : Element → Bool
  | .f64 b =>
    (kind == .full || p.subGMode == .exact) && binary64Finite b &&
      decide (binary64Units b ≤ (2 ^ p.sampleBits - 1) * 2 ^ unitExponent)
  | .nat n => kind == .sub && p.subGMode == .truncate && decide (n < 2 ^ p.sampleBits)

/-- An image whose list holds exactly the elements of its shape, each in range (R32, R34, R35). -/
def Image.wf (p : Params) (img : Image) : Bool :=
  img.elems.length == img.rows * img.cols * 3 && img.elems.all (Element.wf p img.kind)

/-- The canonical form of the two buffer spaces (R30, R32). -/
def Memory.wf (p : Params) (m : Memory) : Bool :=
  (match m.frame with
    | none => true
    | some f => f.wf p) &&
  (match m.image with
    | none => true
    | some img => img.wf p)

end Sys2Proof.Machine
end

