-- ==== Sys2Proof/Machine/Ops.lean ====
section
/-!
DEFINITION. The named operations over the registers, the buffers and the fault record: register access, starting a
command, completing it with an image or with an error (the block's only exception entry: 44_external_interface R157,
R158; 60_exceptions R172, R175; there is no return from an error, R176), recording a host fault, reset.
-/
namespace Sys2Proof.Machine

/-- STATE = BUSY. -/
def State.busy (s : State) : Bool := statusState s.status == .busy

/-- STATE = DONE. -/
def State.done (s : State) : Bool := statusState s.status == .done

/-- x[n] for the four registers of R22; there is no other (R56). -/
def State.readReg (s : State) (n : Nat) : Option Word :=
  match n with
  | 0 => some s.cmd
  | 1 => some (statusRead s.status)
  | 2 => some s.ny
  | 3 => some s.nx
  | _ => none

/-- Append an entry to the fault record and change nothing else (R38, R178). -/
def State.recordFault (s : State) (e : HostFault) : State := { s with faults := s.faults ++ [e] }

/-- Hand a value back to HOST. -/
def State.reply (s : State) (r : Reply) : State := { s with replies := s.replies ++ [r] }

/-- Install a frame (R150): IN, NY and NX. -/
def State.installFrame (s : State) (f : Frame) : State :=
  { s with mem := { s.mem with frame := some f }, ny := BitVec.ofNat 32 f.ny, nx := BitVec.ofNat 32 f.nx }

/-- Accept a command word (R151): CMD, STATUS = BUSY, OUT emptied. -/
def State.startCommand (s : State) (w : Word) : State :=
  { s with cmd := w, status := statusBusy, mem := { s.mem with image := none } }

/-- Complete(OK(img)) of R157. -/
def State.completeImage (s : State) (img : Image) : State :=
  { s with mem := { s.mem with image := some img }, status := statusDone }

/-- Complete(Err(e)) of R158, and so `raise` of R9 and R172: the entry of an error. -/
def State.raiseError (s : State) (e : CommandError) : State :=
  { s with mem := { s.mem with image := none }, status := statusError e }

/-- Complete(result) of R155. -/
def State.complete (s : State) : Except CommandError Image → State
  | .ok img => s.completeImage img
  | .error e => s.raiseError e

/-- A reset event (R190, R191): every register and buffer to its reset value; the fault record stays (R179). -/
def State.resetEvent (s : State) : State :=
  { State.reset with faults := s.faults, pending := s.pending, replies := s.replies }

/-- Run a decoder on the frame in IN and complete the command with its result (R155). The decoder answers none
where it would read a sample that is not in the frame space (R58). -/
def runDecoder (decoder : Frame → Option (Except CommandError Image)) (s : State) :
    Host.Outcome State Fault Refusal :=
  match s.mem.frame with
  | none => .fault .noFrameInEngine
  | some f =>
    match decoder f with
    | none => .fault .sampleOutsideFrame
    | some result => .next (s.complete result)

/-- A frame for a state that has none: 4 × 4 (the least shape every command accepts, R95) of zeros. -/
def placedFrame : Frame := { ny := 4, nx := 4, samples := List.replicate 16 0 }

/-- The state in which the command word `w` is the next thing to run (R192: a frame is loaded and the word written
to CMD): a frame if there is none, the word in CMD, STATUS = BUSY, OUT emptied, and ENGINE's turn next. -/
def State.placeCommand (s : State) (w : Word) : State :=
  let loaded := match s.mem.frame with
    | none => s.installFrame placedFrame
    | some _ => s
  { loaded.startCommand w with pending := [] }

end Sys2Proof.Machine
end

