-- ==== Sys2Proof/Machine/Pipeline.lean ====
section
/-!
DEFINITION. The neighbour-averaging pipeline (42_neighbor_averaging_pipeline R110 to R119): position classes,
templates, the in-bounds filter, corner sources, the duplicated pair, and Interp.
-/
namespace Sys2Proof.Machine

/-- The position classes (R110). -/
inductive PositionClass where
  | interior
  | border
  | corner
  deriving DecidableEq, Repr

/-- A (row, column) offset (R112). -/
structure Offset where
  dr : Int
  dc : Int
  deriving DecidableEq, Repr

/-- Class(r, c) of R110, for a frame of shape (ny, nx). -/
def classOf (ny nx r c : Nat) : PositionClass :=
  if (r = 0 ∨ r + 1 = ny) ∧ (c = 0 ∨ c + 1 = nx) then .corner
  else if r = 0 ∨ r + 1 = ny ∨ c = 0 ∨ c + 1 = nx then .border
  else .interior

/-- The horizontal and vertical pairs, the four orthogonal neighbours (north, south, west, east) and the four
diagonals of R112. -/
def horizontalPair : List Offset := [⟨0, -1⟩, ⟨0, 1⟩]
def verticalPair : List Offset := [⟨-1, 0⟩, ⟨1, 0⟩]
def orthogonals : List Offset := [⟨-1, 0⟩, ⟨1, 0⟩, ⟨0, -1⟩, ⟨0, 1⟩]
def diagonals : List Offset := [⟨-1, -1⟩, ⟨-1, 1⟩, ⟨1, -1⟩, ⟨1, 1⟩]

/-- T(ro, k) of R112. A role's native channel has no template (R111). -/
def template : Role → Channel → List Offset
  | .g1, .r => horizontalPair
  | .g1, .b => verticalPair
  | .g2, .r => verticalPair
  | .g2, .b => horizontalPair
  | .r, .g => orthogonals
  | .r, .b => diagonals
  | .b, .g => orthogonals
  | .b, .r => diagonals
  | .g1, .g => []
  | .g2, .g => []
  | .r, .r => []
  | .b, .b => []

/-- Surv(r, c, k) of R113, for a frame of shape (ny, nx). -/
def surviving (ny nx r c : Nat) (k : Channel) : List Offset :=
  (template (role r c) k).filter fun o => inBounds ny nx (r + o.dr) (c + o.dc)

/-- IN[r+dr][c+dc]. -/
def Frame.neighbour (f : Frame) (r c : Nat) (o : Offset) : Option Nat := f.sample (r + o.dr) (c + o.dc)

/-- The mean of the samples at these offsets (R114, R115): Mean of their exact sum and their number. -/
def meanOver (f : Frame) (r c : Nat) (os : List Offset) : Option Binary64 :=
  (allSome (os.map (f.neighbour r c))).map fun vs => mean vs.sum vs.length

/-- One of two, by a corner parameter. -/
def pickCorner {α : Type} (ch : CornerChoice) (vertical horizontal : α) : α :=
  match ch with
  | .vertical => vertical
  | .horizontal => horizontal

/-- The parameter that governs a corner of this role: CORNER_G_AT_R at the R corner, CORNER_G_AT_B at the B corner
(R116). The other two corners have no choice to make. -/
def cornerChoice (p : Params) : Role → CornerChoice
  | .r => p.cornerGAtR
  | .b => p.cornerGAtB
  | .g1 => .vertical
  | .g2 => .vertical

/-- The source offsets of R116 at the corner of this role: under VERTICAL and under HORIZONTAL, the same where the
table has one row. (The native channel is copied before, R117; its entry is the pixel itself.) -/
def cornerSources : Role → Channel → Offset × Offset
  | .g1, .r => (⟨0, 1⟩, ⟨0, 1⟩)
  | .g1, .b => (⟨1, 0⟩, ⟨1, 0⟩)
  | .r, .g => (⟨1, 0⟩, ⟨0, -1⟩)
  | .r, .b => (⟨1, -1⟩, ⟨1, -1⟩)
  | .b, .g => (⟨-1, 0⟩, ⟨0, 1⟩)
  | .b, .r => (⟨-1, 1⟩, ⟨-1, 1⟩)
  | .g2, .r => (⟨-1, 0⟩, ⟨-1, 0⟩)
  | .g2, .b => (⟨0, -1⟩, ⟨0, -1⟩)
  | .g1, .g => (⟨0, 0⟩, ⟨0, 0⟩)
  | .g2, .g => (⟨0, 0⟩, ⟨0, 0⟩)
  | .r, .r => (⟨0, 0⟩, ⟨0, 0⟩)
  | .b, .b => (⟨0, 0⟩, ⟨0, 0⟩)

/-- CornerSrc(r, c, k) of R116, by the corner's role. -/
def cornerSrc (p : Params) (ro : Role) (k : Channel) : Offset :=
  pickCorner (cornerChoice p ro) (cornerSources ro k).1 (cornerSources ro k).2

/-- The sample a corner copies (R116). Both candidates are read and the parameter picks between the values, so that
whether the command completes does not hang on an open parameter (in a frame the decoder accepts both are inside). -/
def cornerCopy (p : Params) (f : Frame) (r c : Nat) (k : Channel) : Option Nat :=
  let ro := role r c
  match f.neighbour r c (cornerSources ro k).1, f.neighbour r c (cornerSources ro k).2 with
  | some v, some h => some (pickCorner (cornerChoice p ro) v h)
  | _, _ => none

/-- DupCase of R118. -/
def dupCase : DupTarget → Role × Channel
  | .bAtR => (.r, .b)
  | .rAtB => (.b, .r)

/-- The two diagonal neighbours of DUP_PAIR (R118), out of the north-west, north-east, south-west and south-east. -/
def pickPair {α : Type} (pair : DupPair) (nw ne sw se : α) : α × α :=
  match pair with
  | .nwNe => (nw, ne)
  | .nwSw => (nw, sw)
  | .nwSe => (nw, se)
  | .neSw => (ne, sw)
  | .neSe => (ne, se)
  | .swSe => (sw, se)

/-- DupMean(r, c) of R118, of the four diagonal samples. -/
def dupMean (p : Params) (nw ne sw se : Nat) : Binary64 :=
  let ab := pickPair p.dupPair nw ne sw se
  mean (ab.1 + ab.2 + ab.1 + ab.2) 4

/-- An interior diagonal average under DUP = 1 (R118): the duplicated pair in the DupCase, the four distinct
diagonals otherwise. -/
def dupDiagonal (p : Params) (f : Frame) (r c : Nat) (k : Channel) : Option Binary64 :=
  match f.neighbour r c ⟨-1, -1⟩, f.neighbour r c ⟨-1, 1⟩, f.neighbour r c ⟨1, -1⟩, f.neighbour r c ⟨1, 1⟩ with
  | some nw, some ne, some sw, some se =>
    some (if (role r c, k) = dupCase p.dupTarget then dupMean p nw ne sw se else mean (nw + ne + sw + se) 4)
  | _, _, _, _ => none

/-- Interp(IN, r, c, k, dup) of R117. -/
def interp (p : Params) (f : Frame) (r c : Nat) (k : Channel) (dup : Bool) : Option Binary64 :=
  if k = native (role r c) then (f.sample r c).map f64
  else
    match classOf f.ny f.nx r c with
    | .corner => (cornerCopy p f r c k).map f64
    | .border => meanOver f r c (surviving f.ny f.nx r c k)
    | .interior =>
      if dup = true ∧ template (role r c) k = diagonals then dupDiagonal p f r c k
      else meanOver f r c (surviving f.ny f.nx r c k)

end Sys2Proof.Machine
end

