-- ==== Sys2Proof/Machine/FullRes.lean ====
section
/-!
DEFINITION. The full-resolution decoder (43_full_resolution_decoder): DECODE_FULL and DECODE_FULL_DUP.
-/
namespace Sys2Proof.Machine

/-- Element (r, c, k) of the FULL image (R130). -/
def fullElement (p : Params) (f : Frame) (dup : Bool) (r c : Nat) (k : Channel) : Option Element :=
  (interp p f r c k dup).map .f64

/-- ExecFull(IN, dup) of R130. -/
def execFull (p : Params) (dup : Bool) (f : Frame) : Option (Except CommandError Image) :=
  match checkGridFull f.ny f.nx with
  | some e => some (.error e)
  | none => (buildImage .full f.ny f.nx (fullElement p f dup)).map .ok

/-- DECODE_FULL (R130): ExecFull(IN, false). -/
def execDecodeFull (s : State) : Host.Outcome State Fault Refusal :=
  runDecoder (execFull Config.params false) s

/-- DECODE_FULL_DUP (R131): ExecFull(IN, true). -/
def execDecodeFullDup (s : State) : Host.Outcome State Fault Refusal :=
  runDecoder (execFull Config.params true) s

end Sys2Proof.Machine
end

