-- ==== Sys2Proof/Machine/Subsample.lean ====
section
/-!
DEFINITION. The subsampling decoder (41_subsampling_decoder): DECODE_SUBSAMPLED.
-/
namespace Sys2Proof.Machine

/-- SubValue(v) of R102. -/
def subValue (p : Params) (v : Nat) : Element :=
  match p.subGMode with
  | .exact => .f64 (f64 v)
  | .truncate => .nat v

/-- SubGreen(G1v, G2v) of R101: the exact mean, or its floor. -/
def subGreen (p : Params) (g1 g2 : Nat) : Element :=
  match p.subGMode with
  | .exact => .f64 (rnd64 (g1 + g2) 2)
  | .truncate => .nat ((g1 + g2) / 2)

/-- Element (i, j, k) of the SUB image, from tile (i, j) alone (R100, R104). -/
def subElement (p : Params) (f : Frame) (i j : Nat) (k : Channel) : Option Element :=
  let r0 := 2 * i
  let c0 := 2 * j
  match k with
  | .r => (f.sample r0 (c0 + 1)).map (subValue p)
  | .g =>
    match f.sample r0 c0, f.sample (r0 + 1) (c0 + 1) with
    | some g1, some g2 => some (subGreen p g1 g2)
    | _, _ => none
  | .b => (f.sample (r0 + 1) c0).map (subValue p)

/-- ExecSub of R100. -/
def execSub (p : Params) (f : Frame) : Option (Except CommandError Image) :=
  match checkGridSub f.ny f.nx with
  | some e => some (.error e)
  | none => (buildImage .sub (f.ny / 2) (f.nx / 2) (subElement p f)).map .ok

/-- DECODE_SUBSAMPLED (R100). -/
def execDecodeSubsampled (s : State) : Host.Outcome State Fault Refusal :=
  runDecoder (execSub Config.params) s

end Sys2Proof.Machine
end

