-- ==== Sys2Proof/Machine/Dispatch.lean ====
section
/-!
DEFINITION. The dispatch of ENGINE's step (44_external_interface R155): one arm per command.
-/
namespace Sys2Proof.Machine

def exec (i : Instr) (s : State) : Host.Outcome State Fault Refusal :=
  match i with
  | .decodeSubsampled => Sys2Proof.Machine.execDecodeSubsampled s
  | .decodeFull => Sys2Proof.Machine.execDecodeFull s
  | .decodeFullDup => Sys2Proof.Machine.execDecodeFullDup s

end Sys2Proof.Machine
end

