-- ==== Sys2Proof/Machine/HostPort.lean ====
section
/-!
DEFINITION. The host actions (44_external_interface R150 to R154) and the byte-addressed bus a platform may put before
the registers (20_memory R51, R54, R56). A protocol violation is a next state with one more entry in the fault record
(60_exceptions R178).
-/
namespace Sys2Proof.Machine

/-- The indices of the samples that are out of range (R150). -/
def badSamples (p : Params) (v : List Nat) : List Nat :=
  (List.range v.length).filter fun i => !decide (v.getD i 0 < 2 ^ p.sampleBits)

/-- The index SAMPLE_OUT_OF_RANGE records: one of the offending ones, which one is open (assumption 6). -/
def pickedBadSample (bad : List Nat) : Nat := bad.getD (Config.outOfRangePick bad % bad.length) 0

/-- LOAD_FRAME ny, nx, v (R150). -/
def loadFrame (p : Params) (ny nx : Nat) (v : List Nat) (s : State) : State :=
  if s.busy then s.recordFault .loadWhileBusy
  else if p.maxNy < ny ∨ p.maxNx < nx then s.recordFault (.frameTooLarge ny nx)
  else if v.length ≠ ny * nx then s.recordFault (.frameShape ny nx v.length)
  else if badSamples p v ≠ [] then s.recordFault (.sampleOutOfRange (pickedBadSample (badSamples p v)))
  else s.installFrame { ny := ny, nx := nx, samples := v }

/-- WRITE CMD, w (R151). -/
def writeCmd (w : Word) (s : State) : State :=
  if s.busy then s.recordFault (.cmdWhileBusy w)
  else if s.mem.frame = none then s.recordFault (.noFrame w)
  else s.startCommand w

/-- WRITE n, w (R151, R152). -/
def writeReg (n : Nat) (w : Word) (s : State) : State :=
  if n = 0 then writeCmd w s
  else if n < 4 then s.recordFault (.writeReadOnly n)
  else s.recordFault (.noSuchRegister n)

/-- READ n (R153). -/
def readRegister (n : Nat) (s : State) : State :=
  match s.readReg n with
  | some w => s.reply (.register n w)
  | none => s.recordFault (.noSuchRegister n)

/-- READ_OUT r, c, k (R154). -/
def readOut (r c k : Nat) (s : State) : Host.Outcome State Fault Refusal :=
  match s.done, s.mem.image with
  | true, some img =>
    if img.rows ≤ r ∨ img.cols ≤ c ∨ 3 ≤ k then .next (s.recordFault (.outIndexRange r c k))
    else
      match img.element r c k with
      | some e => .next (s.reply (.element r c k e))
      | none => .fault .elementOutsideImage
  | _, _ => .next (s.recordFault (.outNotReady r c k))

/-- The bytes of a register word on a bus of this byte order, lowest address first (R51). -/
def wordToBytes (order : ByteOrder) (w : Word) : List Byte :=
  match order with
  | .little => [w.extractLsb' 0 8, w.extractLsb' 8 8, w.extractLsb' 16 8, w.extractLsb' 24 8]
  | .big => [w.extractLsb' 24 8, w.extractLsb' 16 8, w.extractLsb' 8 8, w.extractLsb' 0 8]

/-- The register word four bytes carry, lowest address first (R51). -/
def bytesToWord (order : ByteOrder) (bytes : List Byte) : Option Word :=
  match order, bytes with
  | .little, [b0, b1, b2, b3] => some (b3 ++ b2 ++ b1 ++ b0)
  | .big, [b0, b1, b2, b3] => some (b0 ++ b1 ++ b2 ++ b3)
  | _, _ => none

/-- The register number at a bus address: register n is at REG_BASE + 4·n (R56). -/
def busRegister (p : Params) (addr : Nat) : Nat := (addr - p.regBase) / 4

/-- A bus write (R54, R56): a whole aligned word is the WRITE of its register, anything else records
BAD_REGISTER_ACCESS. -/
def busWrite (p : Params) (addr : Nat) (bytes : List Byte) (s : State) : State :=
  match busAligned p addr bytes.length, bytesToWord p.hostByteOrder bytes with
  | true, some w => writeReg (busRegister p addr) w s
  | _, _ => s.recordFault (.badRegisterAccess addr)

/-- A bus read (R54, R56): a whole aligned word is the READ of its register. -/
def busRead (p : Params) (addr size : Nat) (s : State) : State :=
  if busAligned p addr size then
    match s.readReg (busRegister p addr) with
    | some w => s.reply (.bus addr (wordToBytes p.hostByteOrder w))
    | none => s.recordFault (.noSuchRegister (busRegister p addr))
  else s.recordFault (.badRegisterAccess addr)

/-- One host action, one atomic step (R55). -/
def hostAct (p : Params) (a : HostAction) (s : State) : Host.Outcome State Fault Refusal :=
  match a with
  | .loadFrame ny nx v => .next (loadFrame p ny nx v s)
  | .write n w => .next (writeReg n w s)
  | .read n => .next (readRegister n s)
  | .readOut r c k => readOut r c k s
  | .busWrite addr bytes => .next (busWrite p addr bytes s)
  | .busRead addr size => .next (busRead p addr size s)

/-- READ_OUT of every element of a rows × cols image (R80), in row-major order with k fastest: R80 says "for every"
and leaves the order open, which is DESIGN CHOICE here (assumption 16). -/
def readOutAll (rows cols : Nat) : List Event :=
  (List.range (rows * cols * 3)).map fun i => .host (.readOut (i / 3 / cols) (i / 3 % cols) (i % 3))

/-- The pseudo-instructions DECODE.SUB, DECODE.FULL and DECODE.FULL.DUP (R80): WRITE CMD of the command's word. -/
def decodePseudo (i : Instr) : Event := .host (.write 0 (encode i))

/-- The call decode_subsampled(raw) of the source (R80). -/
def callSubsampled (raw : Frame) (spins : Nat) : List Event :=
  [.host (.loadFrame raw.ny raw.nx raw.samples), decodePseudo .decodeSubsampled, .wait spins,
    .readBack (raw.ny / 2) (raw.nx / 2)]

/-- The call decode_full(raw) of the source (R80). -/
def callFull (raw : Frame) (spins : Nat) : List Event :=
  [.host (.loadFrame raw.ny raw.nx raw.samples), decodePseudo .decodeFull, .wait spins, .readBack raw.ny raw.nx]

end Sys2Proof.Machine
end

