-- ==== Sys2Proof/Machine/Engine.lean ====
section
/-!
DEFINITION. ENGINE's step (44_external_interface R155, R156) and whose turn it is (20_memory R60; 30_encoding R79, R80):
one step of the machine is one atomic step of the agent that `pending` names.
-/
namespace Sys2Proof.Machine

/-- ENGINE's step in state BUSY (R155): the word in CMD is decoded first; a reserved one completes with
INVALID_COMMAND and no shape check (R156). -/
def engineStep (s : State) : Host.Outcome State Fault Refusal :=
  match decode s.cmd with
  | .ok i => exec i s
  | .error _ => .next (s.raiseError .invalidCommand)

/-- ENGINE's turn: it is enabled exactly when STATE = BUSY (R155); otherwise the turn passes. -/
def engineTurn (s : State) : Host.Outcome State Fault Refusal :=
  if s.busy then engineStep s else .next s

/-- One poll of WAIT (R80): READ STATUS. -/
def poll (s : State) : State := readRegister 1 s

/-- WAIT (R80), with the events after it: while BUSY it polls, `spins` times before ENGINE takes its step; once not
BUSY it polls a last time and is over. -/
def waitTurn (spins : Nat) (rest : List Event) (s : State) : Host.Outcome State Fault Refusal :=
  if s.busy then
    match spins with
    | 0 => engineStep s
    | n + 1 => .next { poll s with pending := .wait n :: rest }
  else .next { poll s with pending := rest }

/-- The tail of a call (R80): READ STATUS and, if it is DONE, the READ_OUTs. -/
def readBackTurn (rows cols : Nat) (rest : List Event) (s : State) : State :=
  if s.done then { poll s with pending := readOutAll rows cols ++ rest } else { poll s with pending := rest }

/-- One atomic step (R60). With no event pending, ENGINE steps if it is BUSY (R159); otherwise nothing is left to do
and the state stays. -/
def turn (s : State) : Host.Outcome State Fault Refusal :=
  match s.pending with
  | [] => engineTurn s
  | .engine :: rest => engineTurn { s with pending := rest }
  | .reset :: rest => .next { s with pending := rest }.resetEvent
  | .host a :: rest => hostAct Config.params a { s with pending := rest }
  | .wait spins :: rest => waitTurn spins rest s
  | .readBack rows cols :: rest => .next (readBackTurn rows cols rest s)

end Sys2Proof.Machine
end

