-- ==== Sys2Proof/Safety.lean ====
section
/-!
DEFINITION. What a state and a run must be: the invariant of the block (10_state), and the end of a run
(44_external_interface R160).
-/
namespace Sys2Proof.Machine

/-- A frame that lists exactly the samples of its shape (R30). -/
abbrev Frame.Complete (f : Frame) : Prop := f.samples.length = f.ny * f.nx

/-- The five values of the STATUS word (R26, R76). -/
def statusValues : List Word := [0x00000000, 0x00000001, 0x00000002, 0x00000013, 0x00000023]

/-- NY and NX hold the loaded frame's shape, or 0 with no frame (R27, R28, R30, R40). -/
def State.shapeAgrees (s : State) : Prop :=
  match s.mem.frame with
  | none => s.ny = 0 ∧ s.nx = 0
  | some f => s.ny.toNat = f.ny ∧ s.nx.toNat = f.nx

/-- The invariant: STATUS is one of its five values, the buffers are in canonical form, NY and NX agree with IN,
a command in flight has a frame (R151), and OUT holds an image exactly in state DONE (R24, R32). -/
structure State.Inv (p : Params) (s : State) : Prop where
  status_legal : s.status ∈ statusValues
  mem_wf : s.mem.wf p = true
  shape_agrees : s.shapeAgrees
  busy_has_frame : s.busy = true → s.mem.frame.isSome = true
  image_iff_done : s.mem.image.isSome = s.done

/-- No host action is left. -/
def State.hostFinished (s : State) : Bool :=
  s.pending.all fun e =>
    match e with
    | .host _ => false
    | .engine => true
    | .reset => true
    | .wait _ => false
    | .readBack _ _ => false

/-- The successful end of a run (R160). -/
def State.success (s : State) : Bool := s.hostFinished && !s.busy && s.faults.isEmpty

end Sys2Proof.Machine
end

