-- ==== Sys2Proof/Certificates/Slice0/Obligations.lean ====
section
/-!
DEFINITION. The statements about the machine, from the numbered rules of spec/. Each docstring names its rules; a clause
that rests on the model's own choice names its assumption.
-/

open Sys2Proof Sys2Proof.Machine

/-! ## What the statements are written with -/

namespace Sys2Proof.Claims

/-- The shape the subsampled decoder accepts (R94). -/
abbrev SubShape (f : Frame) : Prop := f.ny % 2 = 0 ∧ f.nx % 2 = 0

/-- The shape the full decoder accepts (R95). -/
abbrev FullShape (f : Frame) : Prop := f.ny % 2 = 0 ∧ f.nx % 2 = 0 ∧ 4 ≤ f.ny ∧ 4 ≤ f.nx

/-- The two commands of the full decoder, with their DUP flag (R130, R131). -/
def fullCommand : Bool → Instr
  | false => .decodeFull
  | true => .decodeFullDup

/-- The state after a command that completed with an image: STATUS = 0x02, OUT = img, all else as before (R157). -/
def completed (s : State) (img : Image) : State :=
  { s with status := 0x00000002, mem := { frame := s.mem.frame, image := some img } }

/-- The state after a command that ended in an error: the STATUS word, OUT = none, all else as before (R158, R175). -/
def failed (s : State) (word : Word) : State :=
  { s with status := word, mem := { frame := s.mem.frame, image := none } }

/-- `img` is the FULL image a command leaves: exec answers the completed state and the image has the frame's shape
and is fully populated (R130, R157). -/
def FullImage (s : State) (f : Frame) (dup : Bool) (img : Image) : Prop :=
  exec (fullCommand dup) s = .next (completed s img) ∧
    img.kind = .full ∧ img.rows = f.ny ∧ img.cols = f.nx ∧ img.elems.length = f.ny * f.nx * 3

/-- The samples at these positions, all of them. -/
def samplesAt (f : Frame) (ps : List (Int × Int)) : Option (List Nat) := allSome (ps.map fun q => f.sample q.1 q.2)

/-- The element that copies the sample at this position (R111, R116). -/
def copied (f : Frame) (r c : Int) : Option Element := (f.sample r c).map fun v => .f64 (f64 v)

/-- The element that is the mean of the samples at these positions (R114, R115). -/
def averaged (f : Frame) (ps : List (Int × Int)) : Option Element :=
  (samplesAt f ps).map fun vs => .f64 (mean vs.sum vs.length)

/-- The sample at a position inside the frame, for the pseudocode of R117, which reads no other. -/
def sampleValue (f : Frame) (r c : Int) : Nat := (f.sample r c).getD 0

/-- The two offsets of DUP_PAIR (R118). -/
def pairOffsets (pair : DupPair) : Offset × Offset := pickPair pair ⟨-1, -1⟩ ⟨-1, 1⟩ ⟨1, -1⟩ ⟨1, 1⟩

/-- Interp(IN, r, c, k, dup) as the pseudocode of R117 writes it. -/
def interpText (p : Params) (f : Frame) (r c : Nat) (k : Channel) (dup : Bool) : Binary64 :=
  let ro := role r c
  let cls := classOf f.ny f.nx r c
  let at' (o : Offset) : Nat := sampleValue f (r + o.dr) (c + o.dc)
  if k = native ro then f64 (sampleValue f r c)
  else if cls = .corner then f64 (at' (cornerSrc p ro k))
  else if dup = true ∧ cls = .interior ∧ (ro, k) = dupCase p.dupTarget then
    mean (at' (pairOffsets p.dupPair).1 + at' (pairOffsets p.dupPair).2 +
      at' (pairOffsets p.dupPair).1 + at' (pairOffsets p.dupPair).2) 4
  else
    let terms := surviving f.ny f.nx r c k
    mean (terms.map at').sum terms.length

/-- The distance of a binary64 value from the rational num / den, times den, in units of 2^−1074. -/
def distance (b : Binary64) (num den : Nat) : Nat :=
  ((den * binary64Units b : Int) - (num * 2 ^ unitExponent : Int)).natAbs

/-- The steps within which ENGINE's turn comes while BUSY (R159). -/
def turnsLeft : List Event → Nat
  | [] => 1
  | .wait spins :: _ => spins + 1
  | _ :: rest => turnsLeft rest + 1

end Sys2Proof.Claims

open Sys2Proof.Claims

/-! ## The command word (30_encoding) -/

/-- R74: Decode, total on every 32-bit word, and the words of the opcode map. -/
def Obligations.DecodeIsTheOpcodeMap : Prop :=
  (∀ w : Word, (decode w).toOption =
    if w = 0x00000001 then some .decodeSubsampled
    else if w = 0x00000002 then some .decodeFull
    else if w = 0x00000006 then some .decodeFullDup
    else none) ∧
  encode .decodeSubsampled = 0x00000001 ∧ encode .decodeFull = 0x00000002 ∧ encode .decodeFullDup = 0x00000006

/-- R71, R74: decoding and encoding agree in both directions, so no word but a command's own decodes to it. -/
def Obligations.DecodeInvertsEncodeExactly : Prop :=
  (∀ i : Instr, decode (encode i) = .ok i) ∧ ∀ (w : Word) (i : Instr), decode w = .ok i → w = encode i

/-- R71, R75, V-ENC: words written out from the fields RSVD ++ DUP ++ OP decode to their command or are refused by
name (the names are the model's). -/
def Obligations.WrittenOutWordsDecode : Prop :=
  decode 0b00000000000000000000000000000001 = .ok .decodeSubsampled ∧
  decode 0b00000000000000000000000000000010 = .ok .decodeFull ∧
  decode 0b00000000000000000000000000000110 = .ok .decodeFullDup ∧
  decode 0b00000000000000000000000000000000 = .error .noOperation ∧
  decode 0b00000000000000000000000000000011 = .error .noOperation ∧
  decode 0b00000000000000000000000000000101 = .error .dupWithSubsampled ∧
  decode 0b00000000000000000000000000001010 = .error .reservedBits ∧
  decode 0b10000000000000000000000000000010 = .error .reservedBits

/-- R75, R173: a reserved word w. WRITE CMD stores it and sets BUSY, whatever events follow; and in state BUSY with such
a word in CMD, ENGINE's turn, whichever way it comes (assumption 1), leaves STATUS = 0x23 and OUT = none and changes
nothing else. -/
def Obligations.ReservedWordEndsInInvalidCommand : Prop :=
  ∀ (s : State) (w : Word), w ≠ 0x00000001 → w ≠ 0x00000002 → w ≠ 0x00000006 →
    (∀ rest, s.pending = .host (.write 0 w) :: rest → s.busy = false → s.mem.frame.isSome = true →
      let t : State := { s with cmd := w, status := 0x00000001, pending := rest,
                                mem := { frame := s.mem.frame, image := none } }
      step s = .next t ∧ t.busy = true) ∧
    (s.busy = true → s.cmd = w →
      (s.pending = [] → step s = .next (failed s 0x00000023)) ∧
      (∀ rest, s.pending = .engine :: rest → step s = .next (failed { s with pending := rest } 0x00000023)) ∧
      (∀ rest, s.pending = .wait 0 :: rest → step s = .next (failed s 0x00000023)))

/-! ## Reset -/

/-- R40, R190: the initial state. `pending` and `replies` are the model's own (assumptions 1 and 2). -/
def Obligations.ResetValues : Prop :=
  State.reset.readReg 0 = some 0x00000000 ∧ State.reset.readReg 1 = some 0x00000000 ∧
  State.reset.readReg 2 = some 0x00000000 ∧ State.reset.readReg 3 = some 0x00000000 ∧
  State.reset.mem.frame = none ∧ State.reset.mem.image = none ∧ State.reset.faults = []

/-- R190, R191, R179: a reset event in any state, BUSY included, gives every register and buffer its reset value and
keeps the fault record. -/
def Obligations.ResetEventRestoresAllButFaults : Prop :=
  ∀ (s : State) (rest : List Event), s.pending = .reset :: rest →
    step s = .next { cmd := 0, status := 0, ny := 0, nx := 0, mem := { frame := none, image := none },
                     faults := s.faults, pending := rest, replies := s.replies }

/-! ## ENGINE's step (44_external_interface) -/

/-- R155: in state BUSY, ENGINE's turn runs exactly the command the word in CMD decodes to. Its turn comes with no
event pending, at an `.engine` event (which it consumes), or in a WAIT that has polled enough (assumption 1). -/
def Obligations.StepRunsTheDecodedCommand : Prop :=
  ∀ (s : State) (i : Instr), s.busy = true → decode s.cmd = .ok i →
    (s.pending = [] → step s = exec i s) ∧
    (∀ rest, s.pending = .engine :: rest → step s = exec i { s with pending := rest }) ∧
    (∀ rest, s.pending = .wait 0 :: rest → step s = exec i s)

/-- The model's placement of a command word (assumption 10) is run by the very next step. -/
def Obligations.PlacedCommandRunsNext : Prop :=
  ∀ (s : State) (i : Instr),
    step (s.withFetchWord 32 (encode i).toNat) = exec i (s.withFetchWord 32 (encode i).toNat) ∧
    (s.withFetchWord 32 (encode i).toNat).cmd = encode i ∧
    (s.withFetchWord 32 (encode i).toNat).busy = true ∧
    (s.withFetchWord 32 (encode i).toNat).mem.frame.isSome = true

/-- R155: ENGINE's step is enabled exactly when STATE = BUSY: in any other state its turn passes and changes nothing
(with nothing pending the state stays: assumption 1). -/
def Obligations.EngineIdlesUnlessBusy : Prop :=
  ∀ s : State, s.busy = false →
    (s.pending = [] → step s = .next s) ∧
    ∀ rest, s.pending = .engine :: rest → step s = .next { s with pending := rest }

/-- R31, R155: a command writes STATUS and OUT and nothing else: CMD, NY, NX, IN (every sample of it), the fault
record and HOST's side are unchanged. For all three commands. -/
def Obligations.CommandFrame : Prop :=
  ∀ (i : Instr) (s t : State), exec i s = .next t →
    t = { s with status := t.status, mem := { frame := s.mem.frame, image := t.mem.image } } ∧
    ∀ j, (t.mem.frame.bind fun f => f.element j) = s.mem.frame.bind fun f => f.element j

/-- R37, R133: the result of a command depends on IN alone: two states with equal frames give the same STATUS and the
same, bit-identical, OUT, whatever their registers, earlier image and history. -/
def Obligations.ResultDependsOnFrameOnly : Prop :=
  ∀ (i : Instr) (s s' t : State), s.mem.frame = s'.mem.frame → exec i s = .next t →
    ∃ t', exec i s' = .next t' ∧ t'.status = t.status ∧ t'.mem = t.mem

/-- R119, R157, R158, R174: with a frame in IN that lists the samples of its shape, every command completes, with an
image and STATUS 0x02 or with no image and STATUS 0x13. -/
def Obligations.EveryCommandCompletes : Prop :=
  ∀ (i : Instr) (s : State) (f : Frame), s.mem.frame = some f → f.Complete →
    (∃ img, exec i s = .next (completed s img)) ∨ exec i s = .next (failed s 0x00000013)

/-- Assumption 3, from R156: ENGINE's step with no frame, which no run reaches, stops by name. -/
def Obligations.CommandWithoutFrameStops : Prop :=
  ∀ (i : Instr) (s : State), s.mem.frame = none → exec i s = .fault .noFrameInEngine

/-! ## The CFA grid (40_cfa_grid_model) -/

/-- R90, R91, R93, R97: the native sites of each role are the products of the index partitions. -/
def Obligations.RoleSitesAreParityProducts : Prop :=
  ∀ ny nx r c : Nat, ny % 2 = 0 → nx % 2 = 0 → r < ny → c < nx →
    (role r c = .g1 ↔ r ∈ evenIndices ny ∧ c ∈ evenIndices nx) ∧
    (role r c = .r ↔ r ∈ evenIndices ny ∧ c ∈ oddIndices nx) ∧
    (role r c = .b ↔ r ∈ oddIndices ny ∧ c ∈ evenIndices nx) ∧
    (role r c = .g2 ↔ r ∈ oddIndices ny ∧ c ∈ oddIndices nx)

/-! ## DECODE_SUBSAMPLED (41_subsampling_decoder) -/

/-- R100, R102: DECODE_SUBSAMPLED of an even shape completes with the image of the tiles; of an odd one it ends in
INVALID_GRID. -/
def Obligations.SubsampledGathersTiles : Prop :=
  ∀ (s : State) (f : Frame), s.mem.frame = some f → f.Complete →
    (SubShape f → ∃ img, exec .decodeSubsampled s = .next (completed s img) ∧
      img.kind = .sub ∧ img.rows = f.ny / 2 ∧ img.cols = f.nx / 2 ∧
      img.elems.length = (f.ny / 2) * (f.nx / 2) * 3 ∧
      ∀ i j : Nat, i < f.ny / 2 → j < f.nx / 2 → ∃ g1 rv bv g2 : Nat,
        f.sample (2 * i : Nat) (2 * j : Nat) = some g1 ∧ f.sample (2 * i : Nat) (2 * j + 1 : Nat) = some rv ∧
        f.sample (2 * i + 1 : Nat) (2 * j : Nat) = some bv ∧ f.sample (2 * i + 1 : Nat) (2 * j + 1 : Nat) = some g2 ∧
        img.element i j 0 = some (.f64 (f64 rv)) ∧
        img.element i j 1 = some (.f64 (rnd64 (g1 + g2) 2)) ∧
        img.element i j 2 = some (.f64 (f64 bv))) ∧
    (¬ SubShape f → exec .decodeSubsampled s = .next (failed s 0x00000013))

/-- R101: the subsampled green of two samples is their exact mean under EXACT (in units of 2^−1074, twice it is the
sum), and its floor under TRUNCATE. -/
def Obligations.SubsampledGreenIsTheExactMean : Prop :=
  ∀ (p : Params) (g1 g2 : Nat), g1 < 2 ^ 32 → g2 < 2 ^ 32 →
    (p.subGMode = .exact → ∃ b, subGreen p g1 g2 = .f64 b ∧ binary64Finite b = true ∧
      2 * binary64Units b = (g1 + g2) * 2 ^ unitExponent) ∧
    (p.subGMode = .truncate → subGreen p g1 g2 = .nat ((g1 + g2) / 2))

/-- R103: a frame with no row or no column and even dimensions completes with an image without elements, and every
READ_OUT of it faults for range. -/
def Obligations.SubsampledEmptyFrameCompletesEmpty : Prop :=
  ∀ (s : State) (f : Frame), s.mem.frame = some f → f.Complete → SubShape f → f.ny = 0 ∨ f.nx = 0 →
    let empty : Image := { kind := .sub, rows := f.ny / 2, cols := f.nx / 2, elems := [] }
    exec .decodeSubsampled s = .next (completed s empty) ∧
    ∀ r c k, readOut r c k (completed s empty) =
      .next { completed s empty with faults := s.faults ++ [.outIndexRange r c k] }

/-- R104: tile (i, j) of the result depends on the four samples of source tile (i, j) and on nothing else: two complete
frames of one shape that agree on them give the same three elements. -/
def Obligations.SubsampledTileIsLocal : Prop :=
  ∀ (s s' : State) (f f' : Frame) (img img' : Image) (i j : Nat),
    s.mem.frame = some f → s'.mem.frame = some f' → f.ny = f'.ny → f.nx = f'.nx →
    exec .decodeSubsampled s = .next (completed s img) → exec .decodeSubsampled s' = .next (completed s' img') →
    i < f.ny / 2 → j < f.nx / 2 →
    f.sample (2 * i : Nat) (2 * j : Nat) = f'.sample (2 * i : Nat) (2 * j : Nat) →
    f.sample (2 * i : Nat) (2 * j + 1 : Nat) = f'.sample (2 * i : Nat) (2 * j + 1 : Nat) →
    f.sample (2 * i + 1 : Nat) (2 * j : Nat) = f'.sample (2 * i + 1 : Nat) (2 * j : Nat) →
    f.sample (2 * i + 1 : Nat) (2 * j + 1 : Nat) = f'.sample (2 * i + 1 : Nat) (2 * j + 1 : Nat) →
    ∀ k : Channel, img.element i j k.index = img'.element i j k.index

/-! ## DECODE_FULL and DECODE_FULL_DUP (42_neighbor_averaging_pipeline, 43_full_resolution_decoder) -/

/-- R130, R117: DECODE_FULL completes with the FULL image in which every element is Interp's value with dup = false;
a shape that fails CheckGridFull ends in INVALID_GRID. -/
def Obligations.FullDecodeIsInterp : Prop :=
  ∀ (s : State) (f : Frame), s.mem.frame = some f → f.Complete →
    (FullShape f → ∃ img, FullImage s f false img ∧
      ∀ (r c : Nat) (k : Channel), r < f.ny → c < f.nx →
        img.element r c k.index = some (.f64 (interpText Config.params f r c k false))) ∧
    (¬ FullShape f → exec .decodeFull s = .next (failed s 0x00000013))

/-- R131: DECODE_FULL_DUP, with dup = true. -/
def Obligations.FullDupDecodeIsInterp : Prop :=
  ∀ (s : State) (f : Frame), s.mem.frame = some f → f.Complete →
    (FullShape f → ∃ img, FullImage s f true img ∧
      ∀ (r c : Nat) (k : Channel), r < f.ny → c < f.nx →
        img.element r c k.index = some (.f64 (interpText Config.params f r c k true))) ∧
    (¬ FullShape f → exec .decodeFullDup s = .next (failed s 0x00000013))

/-- R111, R132 (a), for both commands: the native channel of every pixel is the sample itself. -/
def Obligations.NativeChannelIsTheSample : Prop :=
  ∀ (dup : Bool) (s : State) (f : Frame), s.mem.frame = some f → f.Complete → FullShape f →
    ∃ img, FullImage s f dup img ∧
      ∀ r c : Nat, r < f.ny → c < f.nx → ∃ v, f.sample r c = some v ∧
        img.element r c (native (role r c)).index = some (.f64 (f64 v))

/-- R116, R132 (b), for both commands: each non-native channel of each corner is the sample of the one neighbour the
table names, for every value of CORNER_G_AT_R and CORNER_G_AT_B. -/
def Obligations.CornersCopyOneNeighbour : Prop :=
  ∀ (dup : Bool) (s : State) (f : Frame), s.mem.frame = some f → f.Complete → FullShape f →
    ∃ img, FullImage s f dup img ∧
      img.element 0 0 0 = copied f 0 1 ∧ img.element 0 0 2 = copied f 1 0 ∧
      (Config.params.cornerGAtR = .vertical → img.element 0 (f.nx - 1) 1 = copied f 1 ((f.nx : Int) - 1)) ∧
      (Config.params.cornerGAtR = .horizontal → img.element 0 (f.nx - 1) 1 = copied f 0 ((f.nx : Int) - 2)) ∧
      img.element 0 (f.nx - 1) 2 = copied f 1 ((f.nx : Int) - 2) ∧
      (Config.params.cornerGAtB = .vertical → img.element (f.ny - 1) 0 1 = copied f ((f.ny : Int) - 2) 0) ∧
      (Config.params.cornerGAtB = .horizontal → img.element (f.ny - 1) 0 1 = copied f ((f.ny : Int) - 1) 1) ∧
      img.element (f.ny - 1) 0 0 = copied f ((f.ny : Int) - 2) 1 ∧
      img.element (f.ny - 1) (f.nx - 1) 0 = copied f ((f.ny : Int) - 2) ((f.nx : Int) - 1) ∧
      img.element (f.ny - 1) (f.nx - 1) 2 = copied f ((f.ny : Int) - 1) ((f.nx : Int) - 2)

/-- R112, R114: the missing channels of the interior pixels under DECODE_FULL, by role: horizontal and vertical pairs
at green sites, the four orthogonal greens and the four diagonals at red and blue sites. -/
def Obligations.InteriorMeansByRole : Prop :=
  ∀ (s : State) (f : Frame), s.mem.frame = some f → f.Complete → FullShape f →
    ∃ img, FullImage s f false img ∧
      ∀ r c : Nat, 1 ≤ r → r + 2 ≤ f.ny → 1 ≤ c → c + 2 ≤ f.nx →
        let west := ((r : Int), (c : Int) - 1)
        let east := ((r : Int), (c : Int) + 1)
        let north := ((r : Int) - 1, (c : Int))
        let south := ((r : Int) + 1, (c : Int))
        let diagonal := [((r : Int) - 1, (c : Int) - 1), ((r : Int) - 1, (c : Int) + 1),
          ((r : Int) + 1, (c : Int) - 1), ((r : Int) + 1, (c : Int) + 1)]
        (role r c = .g1 → img.element r c 0 = averaged f [west, east] ∧ img.element r c 2 = averaged f [north, south]) ∧
        (role r c = .g2 → img.element r c 0 = averaged f [north, south] ∧ img.element r c 2 = averaged f [west, east]) ∧
        (role r c = .r →
          img.element r c 1 = averaged f [north, south, west, east] ∧ img.element r c 2 = averaged f diagonal) ∧
        (role r c = .b →
          img.element r c 1 = averaged f [north, south, west, east] ∧ img.element r c 0 = averaged f diagonal)

/-- R115, R113, for both commands: a missing channel of a border pixel is the mean of the template's in-bounds samples
alone, one to three of them. -/
def Obligations.BorderMeansOfInBoundsTerms : Prop :=
  ∀ (dup : Bool) (s : State) (f : Frame), s.mem.frame = some f → f.Complete → FullShape f →
    ∃ img, FullImage s f dup img ∧
      ∀ (r c : Nat) (k : Channel), r < f.ny → c < f.nx → classOf f.ny f.nx r c = .border → k ≠ native (role r c) →
        let terms := (template (role r c) k).filter fun o =>
          decide (0 ≤ (r : Int) + o.dr ∧ (r : Int) + o.dr < f.ny ∧ 0 ≤ (c : Int) + o.dc ∧ (c : Int) + o.dc < f.nx)
        1 ≤ terms.length ∧ terms.length ≤ 3 ∧
        img.element r c k.index = averaged f (terms.map fun o => ((r : Int) + o.dr, (c : Int) + o.dc))

/-- R124: the surviving offsets of every border segment. -/
def Obligations.BorderTermTable : Prop :=
  ∀ ny nx : Nat, ny % 2 = 0 → nx % 2 = 0 → 4 ≤ ny → 4 ≤ nx →
    (∀ c, 0 < c → c < nx - 1 → c % 2 = 0 →
      role 0 c = .g1 ∧ surviving ny nx 0 c .r = [⟨0, -1⟩, ⟨0, 1⟩] ∧ surviving ny nx 0 c .b = [⟨1, 0⟩] ∧
      role (ny - 1) c = .b ∧ surviving ny nx (ny - 1) c .g = [⟨-1, 0⟩, ⟨0, -1⟩, ⟨0, 1⟩] ∧
      surviving ny nx (ny - 1) c .r = [⟨-1, -1⟩, ⟨-1, 1⟩]) ∧
    (∀ c, 0 < c → c < nx - 1 → c % 2 = 1 →
      role 0 c = .r ∧ surviving ny nx 0 c .g = [⟨1, 0⟩, ⟨0, -1⟩, ⟨0, 1⟩] ∧
      surviving ny nx 0 c .b = [⟨1, -1⟩, ⟨1, 1⟩] ∧
      role (ny - 1) c = .g2 ∧ surviving ny nx (ny - 1) c .r = [⟨-1, 0⟩] ∧
      surviving ny nx (ny - 1) c .b = [⟨0, -1⟩, ⟨0, 1⟩]) ∧
    (∀ r, 0 < r → r < ny - 1 → r % 2 = 0 →
      role r 0 = .g1 ∧ surviving ny nx r 0 .r = [⟨0, 1⟩] ∧ surviving ny nx r 0 .b = [⟨-1, 0⟩, ⟨1, 0⟩] ∧
      role r (nx - 1) = .r ∧ surviving ny nx r (nx - 1) .g = [⟨-1, 0⟩, ⟨1, 0⟩, ⟨0, -1⟩] ∧
      surviving ny nx r (nx - 1) .b = [⟨-1, -1⟩, ⟨1, -1⟩]) ∧
    (∀ r, 0 < r → r < ny - 1 → r % 2 = 1 →
      role r 0 = .b ∧ surviving ny nx r 0 .g = [⟨-1, 0⟩, ⟨1, 0⟩, ⟨0, 1⟩] ∧
      surviving ny nx r 0 .r = [⟨-1, 1⟩, ⟨1, 1⟩] ∧
      role r (nx - 1) = .g2 ∧ surviving ny nx r (nx - 1) .r = [⟨-1, 0⟩, ⟨1, 0⟩] ∧
      surviving ny nx r (nx - 1) .b = [⟨0, -1⟩])

/-- R119: no read outside the frame and no empty average: every border pixel keeps a term, every interior pixel keeps
all of them, and both corner sources lie inside. -/
def Obligations.NoEmptyAverageAndNoReadOutside : Prop :=
  ∀ (ny nx r c : Nat) (k : Channel), ny % 2 = 0 → nx % 2 = 0 → 4 ≤ ny → 4 ≤ nx → r < ny → c < nx →
    k ≠ native (role r c) →
    (∀ o ∈ surviving ny nx r c k, inBounds ny nx (r + o.dr) (c + o.dc) = true) ∧
    (classOf ny nx r c = .border → surviving ny nx r c k ≠ []) ∧
    (classOf ny nx r c = .interior →
      surviving ny nx r c k = template (role r c) k ∧ template (role r c) k ≠ []) ∧
    (classOf ny nx r c = .corner → ∀ p : Params,
      inBounds ny nx (r + (cornerSrc p (role r c) k).dr) (c + (cornerSrc p (role r c) k).dc) = true)

/-- R118: under DUP = 1 an interior pixel of the DupCase takes the mean of the duplicated pair, (a + b)/2, and every
other element is as DECODE_FULL gives it, for every value of DUP_TARGET and DUP_PAIR. -/
def Obligations.DupChangesOnlyTheDupCase : Prop :=
  ∀ (s : State) (f : Frame), s.mem.frame = some f → f.Complete → FullShape f →
    ∃ img dupImg, FullImage s f false img ∧ FullImage s f true dupImg ∧
      ∀ (r c : Nat) (k : Channel), r < f.ny → c < f.nx →
        let p := Config.params
        let o := pairOffsets p.dupPair
        (classOf f.ny f.nx r c = .interior ∧ (role r c, k) = dupCase p.dupTarget →
          ∃ a b, f.sample (r + o.1.dr) (c + o.1.dc) = some a ∧ f.sample (r + o.2.dr) (c + o.2.dc) = some b ∧
            dupImg.element r c k.index = some (.f64 (mean (a + b + a + b) 4)) ∧
            mean (a + b + a + b) 4 = rnd64 (a + b) 2) ∧
        (¬ (classOf f.ny f.nx r c = .interior ∧ (role r c, k) = dupCase p.dupTarget) →
          dupImg.element r c k.index = img.element r c k.index)

/-- R130, R131 (corner cases): a frame of constant value gives that value in every element of both commands, 3-term
means included. -/
def Obligations.ConstantFrameStaysConstant : Prop :=
  ∀ (dup : Bool) (s : State) (f : Frame) (v : Nat), s.mem.frame = some f → f.Complete → FullShape f →
    (∀ x ∈ f.samples, x = v) →
    ∃ img, FullImage s f dup img ∧ ∀ e ∈ img.elems, e = .f64 (f64 v)

/-! ## The arithmetic of the mean -/

/-- R121: rnd64(num / den) is the binary64 value nearest to the quotient, ties to even: no finite value is nearer, and
of two equally near the one returned has an even significand. -/
def Obligations.RoundingIsNearestTiesToEven : Prop :=
  ∀ num den : Nat, 0 < den → num < den * 2 ^ 1023 →
    binary64Finite (rnd64 num den) = true ∧
    ∀ b : Binary64, binary64Finite b = true →
      distance (rnd64 num den) num den ≤ distance b num den ∧
      (distance b num den = distance (rnd64 num den) num den → b ≠ rnd64 num den →
        (rnd64 num den).toNat % 2 = 0)

/-- R121, R120: f64(v) is v exactly for v < 2^53. -/
def Obligations.NaturalsBelow53BitsAreExact : Prop :=
  ∀ v : Nat, v < 2 ^ 53 →
    binary64Finite (f64 v) = true ∧ binary64Units (f64 v) = v * 2 ^ unitExponent

/-- R122, R123: a mean of one, two or four samples is exact; of three it is exact when 3 divides the sum, and otherwise
strictly nearer than any other value (no tie). Three terms occur only for green at border R and B sites. -/
def Obligations.MeansAreExactOrUniquelyNearest : Prop :=
  (∀ sum n : Nat, sum < 2 ^ 34 → n = 1 ∨ n = 2 ∨ n = 4 →
    n * binary64Units (mean sum n) = sum * 2 ^ unitExponent) ∧
  (∀ sum : Nat, sum < 2 ^ 34 → sum % 3 = 0 → 3 * binary64Units (mean sum 3) = sum * 2 ^ unitExponent) ∧
  (∀ (sum : Nat) (b : Binary64), sum < 2 ^ 34 → sum % 3 ≠ 0 → binary64Finite b = true → b ≠ mean sum 3 →
    distance (mean sum 3) sum 3 < distance b sum 3) ∧
  (∀ (ny nx r c : Nat) (k : Channel), ny % 2 = 0 → nx % 2 = 0 → 4 ≤ ny → 4 ≤ nx → r < ny → c < nx →
    (surviving ny nx r c k).length = 3 →
    k = .g ∧ classOf ny nx r c = .border ∧ (role r c = .r ∨ role r c = .b))

/-- R35: every element of a FULL image is a finite, non-negative binary64 value at most 2^SAMPLE_BITS − 1, and is zero
or at least 1/4 (2^1072 units of 2^−1074), so never subnormal. -/
def Obligations.FullElementsAreInRange : Prop :=
  ∀ (dup : Bool) (s t : State) (f : Frame) (img : Image), s.mem.frame = some f → f.wf Config.params = true →
    exec (fullCommand dup) s = .next t → t.mem.image = some img →
    ∀ e ∈ img.elems, ∃ b, e = .f64 b ∧ binary64Finite b = true ∧
      binary64Units b ≤ (2 ^ Config.params.sampleBits - 1) * 2 ^ unitExponent ∧
      (binary64Units b = 0 ∨ 2 ^ 1072 ≤ binary64Units b)

/-! ## The host's actions (44_external_interface) -/

/-- R150: LOAD_FRAME. Which offending index SAMPLE_OUT_OF_RANGE records is left open (assumption 6). -/
def Obligations.LoadFrameInstallsOrFaults : Prop :=
  ∀ (s : State) (ny nx : Nat) (v : List Nat) (rest : List Event),
    s.pending = .host (.loadFrame ny nx v) :: rest →
    let p := Config.params
    let fault (e : HostFault) : State := { s with pending := rest, faults := s.faults ++ [e] }
    (s.busy = true → step s = .next (fault .loadWhileBusy)) ∧
    (s.busy = false → p.maxNy < ny ∨ p.maxNx < nx → step s = .next (fault (.frameTooLarge ny nx))) ∧
    (s.busy = false → ny ≤ p.maxNy → nx ≤ p.maxNx → v.length ≠ ny * nx →
      step s = .next (fault (.frameShape ny nx v.length))) ∧
    (s.busy = false → ny ≤ p.maxNy → nx ≤ p.maxNx → v.length = ny * nx → (∃ x ∈ v, 2 ^ p.sampleBits ≤ x) →
      ∃ i x, v[i]? = some x ∧ 2 ^ p.sampleBits ≤ x ∧ step s = .next (fault (.sampleOutOfRange i))) ∧
    (s.busy = false → ny ≤ p.maxNy → nx ≤ p.maxNx → v.length = ny * nx → (∀ x ∈ v, x < 2 ^ p.sampleBits) →
      ∃ t, step s = .next t ∧ t.mem.frame = some ⟨ny, nx, v⟩ ∧ t.ny.toNat = ny ∧ t.nx.toNat = nx ∧
        t.mem.image = s.mem.image ∧ t.cmd = s.cmd ∧ t.status = s.status ∧ t.faults = s.faults ∧
        t.replies = s.replies ∧ t.pending = rest)

/-- R151: WRITE CMD accepts any word, sets BUSY and empties OUT, or faults while BUSY and with no frame. -/
def Obligations.WriteCmdStartsOrFaults : Prop :=
  ∀ (s : State) (w : Word) (rest : List Event), s.pending = .host (.write 0 w) :: rest →
    (s.busy = true → step s = .next { s with pending := rest, faults := s.faults ++ [.cmdWhileBusy w] }) ∧
    (s.busy = false → s.mem.frame = none →
      step s = .next { s with pending := rest, faults := s.faults ++ [.noFrame w] }) ∧
    (s.busy = false → s.mem.frame ≠ none →
      step s = .next { s with cmd := w, status := 0x00000001, pending := rest,
                              mem := { frame := s.mem.frame, image := none } })

/-- R152, R29: a write to STATUS, NY or NX, or to a register that does not exist, records its fault and changes no
register or buffer. -/
def Obligations.OtherWritesOnlyFault : Prop :=
  ∀ (s : State) (n : Nat) (w : Word) (rest : List Event), s.pending = .host (.write n w) :: rest → n ≠ 0 →
    step s = .next { s with pending := rest,
                            faults := s.faults ++ [if n < 4 then .writeReadOnly n else .noSuchRegister n] }

/-- R153, R26: READ hands back the register in every state and changes nothing else; STATUS reads with its reserved bits
zero; a register that does not exist faults. -/
def Obligations.ReadReturnsTheRegister : Prop :=
  ∀ (s : State) (n : Nat) (rest : List Event), s.pending = .host (.read n) :: rest →
    let returns (w : Word) : State := { s with pending := rest, replies := s.replies ++ [.register n w] }
    (n = 0 → step s = .next (returns s.cmd)) ∧
    (n = 1 → ∃ w, step s = .next (returns w) ∧
      (∀ b : Nat, b < 32 → w.getLsbD b = if b < 2 ∨ (4 ≤ b ∧ b < 8) then s.status.getLsbD b else false) ∧
      statusState w = statusState s.status ∧ statusErr w = statusErr s.status) ∧
    (n = 2 → step s = .next (returns s.ny)) ∧
    (n = 3 → step s = .next (returns s.nx)) ∧
    (4 ≤ n → step s = .next { s with pending := rest, faults := s.faults ++ [.noSuchRegister n] })

/-- R154, R53: READ_OUT hands back element (r·cols + c)·3 + k of the image, checked against the image's own shape, in
state DONE, and otherwise records its fault; nothing else changes. -/
def Obligations.ReadOutReturnsTheElement : Prop :=
  ∀ (s : State) (r c k : Nat) (rest : List Event), s.pending = .host (.readOut r c k) :: rest →
    (statusState s.status ≠ .done ∨ s.mem.image = none →
      step s = .next { s with pending := rest, faults := s.faults ++ [.outNotReady r c k] }) ∧
    ∀ img, statusState s.status = .done → s.mem.image = some img → img.elems.length = img.rows * img.cols * 3 →
      (img.rows ≤ r ∨ img.cols ≤ c ∨ 3 ≤ k →
        step s = .next { s with pending := rest, faults := s.faults ++ [.outIndexRange r c k] }) ∧
      (r < img.rows → c < img.cols → k < 3 → ∃ e, img.elems[(r * img.cols + c) * 3 + k]? = some e ∧
        step s = .next { s with pending := rest, replies := s.replies ++ [.element r c k e] })

/-- R54, R56, R51: on a byte bus register n is at REG_BASE + 4·n: a whole word there is the WRITE or READ of register n
in the bus's byte order, and an access that is not a whole aligned word records BAD_REGISTER_ACCESS; of the bus
operations for all parameters, and of the machine's step at a bus event. (What alignment is measured from, and an
address below REG_BASE: assumption 8.) -/
def Obligations.BusCarriesWholeAlignedWords : Prop :=
  (∀ (p : Params) (s : State) (n : Nat) (w : Word),
    (∀ bytes, bytes = wordToBytes p.hostByteOrder w →
      busWrite p (p.regBase + 4 * n) bytes s = writeReg n w s) ∧
    (∀ v, s.readReg n = some v →
      busRead p (p.regBase + 4 * n) 4 s =
        s.reply (.bus (p.regBase + 4 * n) (wordToBytes p.hostByteOrder v))) ∧
    (s.readReg n = none → busRead p (p.regBase + 4 * n) 4 s = s.recordFault (.noSuchRegister n)) ∧
    (∀ (addr : Nat) (bytes : List Byte), bytes.length ≠ 4 ∨ addr < p.regBase ∨ (addr - p.regBase) % 4 ≠ 0 →
      busWrite p addr bytes s = s.recordFault (.badRegisterAccess addr) ∧
      busRead p addr bytes.length s = s.recordFault (.badRegisterAccess addr))) ∧
  ∀ (s : State) (rest : List Event),
    let p := Config.params
    let fault (e : HostFault) : State := { s with pending := rest, faults := s.faults ++ [e] }
    (∀ (n : Nat) (w : Word),
      s.pending = .host (.busWrite (p.regBase + 4 * n) (wordToBytes p.hostByteOrder w)) :: rest →
      step s = step { s with pending := .host (.write n w) :: rest }) ∧
    (∀ n, s.pending = .host (.busRead (p.regBase + 4 * n) 4) :: rest →
      (∀ v, s.readReg n = some v →
        step s = .next { s with pending := rest,
                                replies := s.replies ++ [.bus (p.regBase + 4 * n) (wordToBytes p.hostByteOrder v)] }) ∧
      (s.readReg n = none → step s = .next (fault (.noSuchRegister n)))) ∧
    (∀ (addr : Nat) (bytes : List Byte), s.pending = .host (.busWrite addr bytes) :: rest →
      bytes.length ≠ 4 ∨ addr < p.regBase ∨ (addr - p.regBase) % 4 ≠ 0 →
      step s = .next (fault (.badRegisterAccess addr))) ∧
    (∀ addr size : Nat, s.pending = .host (.busRead addr size) :: rest →
      size ≠ 4 ∨ addr < p.regBase ∨ (addr - p.regBase) % 4 ≠ 0 →
      step s = .next (fault (.badRegisterAccess addr)))

/-- R80: WAIT reads STATUS until STATE ≠ BUSY; ENGINE's step ends the loop (after how many reads is left open,
assumption 1). -/
def Obligations.WaitPollsUntilNotBusy : Prop :=
  ∀ (s : State) (spins : Nat) (rest : List Event), s.pending = .wait spins :: rest →
    let polled : List Reply := s.replies ++ [.register 1 (statusRead s.status)]
    (s.busy = false → step s = .next { s with pending := rest, replies := polled }) ∧
    (s.busy = true → 0 < spins → step s = .next { s with pending := .wait (spins - 1) :: rest, replies := polled }) ∧
    (s.busy = true → spins = 0 → step s = engineStep s)

/-- R57, R153, R154: reads have no side effect: a READ, a READ_OUT or a bus read leaves every register and both buffers
as they were. -/
def Obligations.ReadsChangeNoRegisterOrBuffer : Prop :=
  ∀ (s t : State) (a : HostAction) (rest : List Event), s.pending = .host a :: rest →
    (∃ n, a = .read n) ∨ (∃ r c k, a = .readOut r c k) ∨ (∃ addr size, a = .busRead addr size) →
    step s = .next t →
    t.cmd = s.cmd ∧ t.status = s.status ∧ t.ny = s.ny ∧ t.nx = s.nx ∧ t.mem = s.mem ∧ t.pending = rest

/-! ## The whole machine -/

/-- R27, R28, R31, R190: NY, NX and IN change only on LOAD_FRAME and on a reset event: no command, no other host action
and no wait changes them. -/
def Obligations.ShapeAndFrameChangeOnlyOnLoadOrReset : Prop :=
  ∀ s t : State, step s = .next t →
    (∀ ny nx v rest, s.pending ≠ .host (.loadFrame ny nx v) :: rest) → (∀ rest, s.pending ≠ .reset :: rest) →
    t.ny = s.ny ∧ t.nx = s.nx ∧ t.mem.frame = s.mem.frame

/-- R23, R29, R56: CMD changes only when HOST writes register 0, by number or at REG_BASE on the bus, and on a reset
event. -/
def Obligations.CmdChangesOnlyOnWriteOrReset : Prop :=
  ∀ s t : State, step s = .next t → t.cmd ≠ s.cmd →
    ∃ rest, (∃ w, s.pending = .host (.write 0 w) :: rest ∧ t.cmd = w) ∨
      (∃ bytes, s.pending = .host (.busWrite Config.params.regBase bytes) :: rest ∧ bytes.length = 4) ∨
      s.pending = .reset :: rest

/-- R176, R196, R25: outside BUSY, STATUS (an error included) and the image in OUT stand until HOST writes CMD or a reset
comes; LOAD_FRAME discards neither. -/
def Obligations.ResultStandsUntilTheNextCommand : Prop :=
  ∀ s t : State, step s = .next t → s.busy = false → (∀ rest, s.pending ≠ .reset :: rest) →
    (∀ w rest, s.pending ≠ .host (.write 0 w) :: rest) →
    (∀ bytes rest, s.pending ≠ .host (.busWrite Config.params.regBase bytes) :: rest) →
    t.status = s.status ∧ t.mem.image = s.mem.image

/-- R193, R194: while BUSY no host action changes a register or a buffer: not IN (LOAD_WHILE_BUSY), not CMD
(CMD_WHILE_BUSY). -/
def Obligations.BusyBlocksEveryHostAction : Prop :=
  ∀ (s t : State) (a : HostAction) (rest : List Event), s.pending = .host a :: rest → s.busy = true →
    step s = .next t →
    t.cmd = s.cmd ∧ t.status = s.status ∧ t.ny = s.ny ∧ t.nx = s.nx ∧ t.mem = s.mem ∧ t.pending = rest ∧
    (∀ ny nx v, a = .loadFrame ny nx v → t.faults = s.faults ++ [.loadWhileBusy]) ∧
    (∀ w, a = .write 0 w → t.faults = s.faults ++ [.cmdWhileBusy w]) ∧
    (∀ r c k, a = .readOut r c k → t.faults = s.faults ++ [.outNotReady r c k])

/-- R38, R179: no step removes an entry of the fault record: it only grows, at its end. -/
def Obligations.FaultRecordOnlyGrows : Prop :=
  ∀ s t : State, step s = .next t → ∃ more, t.faults = s.faults ++ more

/-- R179, R160: a run with a fault is never a success, however it goes on. -/
def Obligations.RunWithAFaultNeverSucceeds : Prop :=
  ∀ (n : Nat) (s t : State), s.faults ≠ [] → Host.Core.run Sys2Proof.core n s = .next t → t.success = false

/-- The invariant of Safety.lean holds at reset (R40). -/
def Obligations.ResetMeetsTheInvariant : Prop := State.reset.Inv Config.params

/-- R24 to R30, R32 to R35: every step keeps the invariant: STATUS is one of its five values, the buffers are in
canonical form with every sample and element in range, NY and NX hold the frame's shape, a command in flight has a
frame, and OUT holds an image exactly in state DONE. -/
def Obligations.StepKeepsTheInvariant : Prop :=
  ∀ s t : State, s.Inv Config.params → step s = .next t → t.Inv Config.params

/-- R58, R119, R156, R170: from every state that meets the invariant the step answers a next state: no read outside the
frame or the image, and no command without a frame, can occur. -/
def Obligations.StepNeverStopsUnderTheInvariant : Prop :=
  ∀ s : State, s.Inv Config.params → ∃ t, step s = .next t

/-- R159: while BUSY, ENGINE's step (or a reset) comes within the turns the pending events leave, so the block does not
stay BUSY for ever. The spec gives no bound; this one comes from `pending`, the model's own (assumption 1). -/
def Obligations.BusyEndsWithinTheTurnsLeft : Prop :=
  ∀ s : State, s.Inv Config.params → s.busy = true →
    ∃ n t, n ≤ turnsLeft s.pending ∧ Host.Core.run Sys2Proof.core n s = .next t ∧ t.busy = false
end

