-- ==== Sys2Proof/Laws/Binary64.lean ====
section
/-!
SUPPORT. What rounding does, said once (42_neighbor_averaging_pipeline R121): the nearest natural with ties to even, the
value of a bit pattern, and the significand and scale that rnd64 answers with.
-/
namespace Sys2Proof.Machine

/-- `roundEven` lies within half a denominator of the quotient, and takes the even neighbour in a tie. -/
theorem roundEven_within {num den : Nat} (hd : 0 < den) :
    2 * num ≤ 2 * (roundEven num den * den) + den ∧ 2 * (roundEven num den * den) ≤ 2 * num + den ∧
      (2 * num = 2 * (roundEven num den * den) + den ∨ 2 * (roundEven num den * den) = 2 * num + den →
        roundEven num den % 2 = 0) := by
  have hdm := Nat.div_add_mod num den
  have hlt := Nat.mod_lt num hd
  rw [Nat.mul_comm] at hdm
  unfold roundEven
  simp only
  generalize num / den = q at *
  generalize num % den = r at *
  have hsucc : (q + 1) * den = q * den + den := by ring
  split
  · refine ⟨by omega, by omega, by omega⟩
  split
  · rw [hsucc]
    refine ⟨by omega, by omega, by omega⟩
  · rcases Nat.mod_two_eq_zero_or_one q with h | h <;> rw [h]
    · exact ⟨by rw [Nat.add_zero]; omega, by rw [Nat.add_zero]; omega, fun _ => by simpa using h⟩
    · rw [hsucc]
      exact ⟨by omega, by omega, fun _ => by omega⟩

/-- Rounding keeps to the side of a natural the quotient is on. -/
theorem roundEven_le {num den k : Nat} (hd : 0 < den) (h : num ≤ k * den) : roundEven num den ≤ k := by
  by_contra hlt
  have hw := (roundEven_within (num := num) hd).2.1
  have : (k + 1) * den ≤ roundEven num den * den := Nat.mul_le_mul_right _ (by omega)
  have : (k + 1) * den = k * den + den := by ring
  omega

theorem le_roundEven {num den k : Nat} (hd : 0 < den) (h : k * den ≤ num) : k ≤ roundEven num den := by
  by_contra hlt
  have hw := (roundEven_within (num := num) hd).1
  have : (roundEven num den + 1) * den ≤ k * den := Nat.mul_le_mul_right _ (by omega)
  have : (roundEven num den + 1) * den = roundEven num den * den + den := by ring
  omega

/-- A quotient that is a natural rounds to itself. -/
theorem roundEven_mul {k den : Nat} (hd : 0 < den) : roundEven (k * den) den = k :=
  Nat.le_antisymm (roundEven_le hd le_rfl) (le_roundEven hd le_rfl)

/-- Rounding depends on the quotient alone. -/
theorem roundEven_scale {num den k : Nat} (hk : 0 < k) : roundEven (k * num) (k * den) = roundEven num den := by
  have h1 : k * num / (k * den) = num / den := Nat.mul_div_mul_left _ _ hk
  have h2 : k * num % (k * den) = k * (num % den) := Nat.mul_mod_mul_left _ _ _
  unfold roundEven
  simp only [h1, h2]
  have e1 : 2 * (k * (num % den)) < k * den ↔ 2 * (num % den) < den := by
    rw [show 2 * (k * (num % den)) = k * (2 * (num % den)) by ring]
    exact Nat.mul_lt_mul_left hk
  have e2 : k * den < 2 * (k * (num % den)) ↔ den < 2 * (num % den) := by
    rw [show 2 * (k * (num % den)) = k * (2 * (num % den)) by ring]
    exact Nat.mul_lt_mul_left hk
  simp only [e1, e2]

/-- The fields of a pattern given as a number below 2^63 (R122). -/
theorem binary64_fields {n : Nat} (h : n < 2 ^ 63) :
    binary64Sign (BitVec.ofNat 64 n) = 0 ∧ binary64Exponent (BitVec.ofNat 64 n) = n / 2 ^ 52 ∧
      binary64Fraction (BitVec.ofNat 64 n) = n % 2 ^ 52 := by
  refine ⟨?_, ?_, ?_⟩
  · apply BitVec.eq_of_toNat_eq
    simp only [binary64Sign, BitVec.extractLsb'_toNat, BitVec.toNat_ofNat, Nat.shiftRight_eq_div_pow]
    rw [show (0 : BitVec 1).toNat = 0 from rfl]
    omega
  · simp only [binary64Exponent, BitVec.extractLsb'_toNat, BitVec.toNat_ofNat, Nat.shiftRight_eq_div_pow]
    omega
  · simp only [binary64Fraction, BitVec.extractLsb'_toNat, BitVec.toNat_ofNat, Nat.shiftRight_eq_div_pow]
    omega

/-- The value of the pattern u·2^52 + m: m multiples of 2^u, for a significand of 53 bits (or fewer when u = 0), the
carry to 2^53 included. -/
theorem binary64_of_scaled {u m : Nat} (hu : u ≤ 2044) (hm : m ≤ 2 ^ 53) (hlow : u = 0 ∨ 2 ^ 52 ≤ m) :
    binary64Finite (BitVec.ofNat 64 (u * 2 ^ 52 + m)) = true ∧
      binary64Units (BitVec.ofNat 64 (u * 2 ^ 52 + m)) = m * 2 ^ u := by
  obtain ⟨hs, he, hf⟩ := binary64_fields (n := u * 2 ^ 52 + m) (by omega)
  refine ⟨?_, ?_⟩
  · simp only [binary64Finite, hs, he, Bool.and_eq_true, bne_iff_ne, ne_eq]
    exact ⟨rfl, by omega⟩
  · simp only [binary64Units, he, hf]
    rcases Nat.lt_or_ge m (2 ^ 52) with h52 | h52
    · obtain rfl : u = 0 := by omega
      rw [if_pos (by omega)]
      omega
    rcases Nat.lt_or_ge m (2 ^ 53) with h53 | h53
    · have e1 : (u * 2 ^ 52 + m) / 2 ^ 52 = u + 1 := by omega
      have e2 : (u * 2 ^ 52 + m) % 2 ^ 52 = m - 2 ^ 52 := by omega
      rw [e1, e2, if_neg (by omega), Nat.add_sub_cancel, Nat.add_sub_cancel' h52]
    · obtain rfl : m = 2 ^ 53 := by omega
      have e1 : (u * 2 ^ 52 + 2 ^ 53) / 2 ^ 52 = u + 2 := by omega
      have e2 : (u * 2 ^ 52 + 2 ^ 53) % 2 ^ 52 = 0 := by omega
      rw [e1, e2, if_neg (by omega), show u + 2 - 1 = u + 1 by omega]
      ring

/-- The scale rnd64 chooses for a quotient: the place of the last significand bit, in units of 2^−1074. -/
def rnd64Scale (num den : Nat) : Nat := (num * 2 ^ unitExponent / den).log2 - 52

/-- The significand rnd64 answers with, in multiples of 2^scale. -/
def rnd64Significand (num den : Nat) : Nat :=
  roundEven (num * 2 ^ unitExponent) (den * 2 ^ rnd64Scale num den)

/-- What rnd64 answers for a quotient below 2^1023: a finite pattern whose value is significand · 2^scale, the
significand having 53 bits unless the scale is 0; the scale is the one the quotient's leading bit gives. -/
theorem rnd64_spec {num den : Nat} (hd : 0 < den) (hn : num < den * 2 ^ 1023) :
    rnd64 num den = BitVec.ofNat 64 (rnd64Scale num den * 2 ^ 52 + rnd64Significand num den) ∧
      rnd64Scale num den ≤ 2044 ∧ rnd64Significand num den ≤ 2 ^ 53 ∧
      num * 2 ^ unitExponent < 2 ^ 53 * (den * 2 ^ rnd64Scale num den) ∧
      (rnd64Scale num den = 0 ∨
        (2 ^ 52 ≤ rnd64Significand num den ∧ 2 ^ 52 * (den * 2 ^ rnd64Scale num den) ≤ num * 2 ^ unitExponent)) := by
  have hsig : rnd64Significand num den = roundEven (num * 2 ^ unitExponent) (den * 2 ^ rnd64Scale num den) := rfl
  have hrnd : rnd64 num den =
      BitVec.ofNat 64 (min (rnd64Scale num den * 2 ^ 52 + rnd64Significand num den) 0x7FF0000000000000) := by
    unfold rnd64 rnd64Scale rnd64Significand rnd64Scale
    rfl
  generalize hu : rnd64Scale num den = u at *
  generalize rnd64Significand num den = m at *
  obtain ⟨e, he⟩ : ∃ e, e = 1023 + unitExponent := ⟨_, rfl⟩
  have ht : num * 2 ^ unitExponent < den * 2 ^ e := by
    calc num * 2 ^ unitExponent < den * 2 ^ 1023 * 2 ^ unitExponent := Nat.mul_lt_mul_of_pos_right hn (by positivity)
      _ = den * 2 ^ e := by rw [he, Nat.mul_assoc, pow_add]
  have hdu : 0 < den * 2 ^ u := by positivity
  unfold rnd64Scale at hu
  generalize num * 2 ^ unitExponent = t at *
  have hlog : (t / den).log2 ≤ 2096 := by
    rcases Nat.eq_zero_or_pos (t / den) with h0 | h0
    · simp [h0]
    · have hlt : (t / den).log2 < e := (Nat.log2_lt h0.ne').mpr (Nat.div_lt_of_lt_mul ht)
      unfold unitExponent at he
      omega
  have hu' : u ≤ 2044 := by omega
  have hlt : t < den * 2 ^ ((t / den).log2 + 1) := by
    have := Nat.lt_log2_self (n := t / den)
    rw [Nat.mul_comm]
    exact (Nat.div_lt_iff_lt_mul hd).mp this
  have hup : t < 2 ^ 53 * (den * 2 ^ u) := by
    calc t < den * 2 ^ ((t / den).log2 + 1) := hlt
      _ ≤ den * 2 ^ (u + 53) := Nat.mul_le_mul_left _ (Nat.pow_le_pow_right (by omega) (by omega))
      _ = 2 ^ 53 * (den * 2 ^ u) := by rw [pow_add]; ring
  have hm : m ≤ 2 ^ 53 := by
    rw [hsig]
    exact roundEven_le hdu hup.le
  have hlow : u = 0 ∨ 2 ^ 52 ≤ m ∧ 2 ^ 52 * (den * 2 ^ u) ≤ t := by
    rcases Nat.eq_zero_or_pos u with h0 | h0
    · exact .inl h0
    right
    have hne : t / den ≠ 0 := by
      intro h
      rw [h] at hu
      simp at hu
      omega
    have hle : 2 ^ 52 * (den * 2 ^ u) ≤ t := by
      calc 2 ^ 52 * (den * 2 ^ u) = den * 2 ^ (t / den).log2 := by
            rw [show (t / den).log2 = u + 52 by omega, pow_add]; ring
        _ ≤ den * (t / den) := Nat.mul_le_mul_left _ (Nat.log2_self_le hne)
        _ ≤ t := Nat.mul_div_le t den
    refine ⟨?_, hle⟩
    rw [hsig]
    exact le_roundEven hdu hle
  refine ⟨?_, hu', hm, hup, hlow⟩
  rw [hrnd, Nat.min_eq_left (by omega)]

/-- The value rnd64 answers with. -/
theorem rnd64_units {num den : Nat} (hd : 0 < den) (hn : num < den * 2 ^ 1023) :
    binary64Finite (rnd64 num den) = true ∧
      binary64Units (rnd64 num den) = rnd64Significand num den * 2 ^ rnd64Scale num den := by
  obtain ⟨h, hu, hm, -, hlow⟩ := rnd64_spec hd hn
  rw [h]
  exact binary64_of_scaled hu hm (hlow.imp_right And.left)

/-- rnd64 depends on the quotient alone. -/
theorem rnd64_scale {num den k : Nat} (hk : 0 < k) : rnd64 (k * num) (k * den) = rnd64 num den := by
  have h1 : k * num * 2 ^ unitExponent / (k * den) = num * 2 ^ unitExponent / den := by
    rw [Nat.mul_assoc, Nat.mul_div_mul_left _ _ hk]
  unfold rnd64
  simp only [h1]
  rw [Nat.mul_assoc k num, Nat.mul_assoc k den, roundEven_scale hk]

/-- The fields of a finite non-negative pattern make up its number (R122). -/
theorem binary64_toNat {b : Binary64} (h : binary64Finite b = true) :
    b.toNat = binary64Exponent b * 2 ^ 52 + binary64Fraction b ∧ binary64Fraction b < 2 ^ 52 ∧
      binary64Exponent b ≤ 2046 := by
  have hs : b.toNat < 2 ^ 63 := by
    simp only [binary64Finite, Bool.and_eq_true, beq_iff_eq] at h
    have hsign := congrArg BitVec.toNat h.1
    simp only [binary64Sign, BitVec.extractLsb'_toNat, Nat.shiftRight_eq_div_pow] at hsign
    rw [show (0 : BitVec 1).toNat = 0 from rfl] at hsign
    have := b.isLt
    omega
  obtain ⟨-, he, hf⟩ := binary64_fields hs
  rw [BitVec.ofNat_toNat, BitVec.setWidth_eq] at he hf
  have hne : binary64Exponent b ≠ 2047 := by
    simp only [binary64Finite, Bool.and_eq_true, bne_iff_ne] at h
    exact h.2
  rw [he] at hne ⊢
  rw [hf]
  omega

/-- Two finite non-negative patterns of one value are the same pattern. -/
theorem binary64Units_inj {b b' : Binary64} (h : binary64Finite b = true) (h' : binary64Finite b' = true)
    (hu : binary64Units b = binary64Units b') : b = b' := by
  wlog hle : binary64Exponent b ≤ binary64Exponent b' generalizing b b'
  · exact (this h' h hu.symm (by omega)).symm
  obtain ⟨e1, f1, -⟩ := binary64_toNat h
  obtain ⟨e2, f2, -⟩ := binary64_toNat h'
  apply BitVec.eq_of_toNat_eq
  unfold binary64Units at hu
  rw [e1, e2]
  generalize binary64Exponent b = E at *
  generalize binary64Exponent b' = E' at *
  generalize binary64Fraction b = F at *
  generalize binary64Fraction b' = F' at *
  split at hu
  · subst E
    split at hu
    · subst E'
      omega
    · have hpow : 1 ≤ 2 ^ (E' - 1) := Nat.one_le_two_pow
      have := Nat.le_mul_of_pos_right (2 ^ 52 + F') hpow
      omega
  · rw [if_neg (by omega)] at hu
    rcases Nat.lt_or_ge E E' with hlt | hge
    · exfalso
      have h1 : (2 ^ 52 + F) * 2 ^ (E - 1) < 2 ^ 53 * 2 ^ (E - 1) :=
        Nat.mul_lt_mul_of_pos_right (by omega) (by positivity)
      have h2 : 2 ^ 52 * 2 ^ (E' - 1) ≤ (2 ^ 52 + F') * 2 ^ (E' - 1) := Nat.mul_le_mul_right _ (by omega)
      have h3 : 2 ^ 52 * 2 ^ E ≤ 2 ^ 52 * 2 ^ (E' - 1) :=
        Nat.mul_le_mul_left _ (Nat.pow_le_pow_right (by omega) (by omega))
      have h4 : 2 ^ 53 * 2 ^ (E - 1) = 2 ^ 52 * 2 ^ E := by
        obtain ⟨k, rfl⟩ : ∃ k, E = k + 1 := ⟨E - 1, by omega⟩
        rw [Nat.add_sub_cancel, pow_succ 2 k]
        ring
      omega
    · obtain rfl : E = E' := by omega
      have := Nat.eq_of_mul_eq_mul_right (by positivity) hu
      omega

/-- A finite value is a multiple of 2^u units, or lies below the 53-bit significands of that scale. -/
theorem binary64Units_multiple {b : Binary64} (h : binary64Finite b = true) (u : Nat) :
    (∃ k, binary64Units b = k * 2 ^ u) ∨ (0 < u ∧ binary64Units b < 2 ^ 52 * 2 ^ u) := by
  obtain ⟨-, hf, -⟩ := binary64_toNat h
  unfold binary64Units
  split
  · rcases Nat.eq_zero_or_pos u with h0 | h0
    · subst h0
      exact .inl ⟨binary64Fraction b, by simp⟩
    · exact .inr ⟨h0, hf.trans_le (Nat.le_mul_of_pos_right _ (by positivity))⟩
  · rcases Nat.lt_or_ge (binary64Exponent b - 1) u with hlt | hge
    · refine .inr ⟨by omega, ?_⟩
      calc _ < 2 ^ 53 * 2 ^ (binary64Exponent b - 1) := Nat.mul_lt_mul_of_pos_right (by omega) (by positivity)
        _ = 2 ^ 52 * 2 ^ (binary64Exponent b - 1 + 1) := by rw [pow_succ]; ring
        _ ≤ _ := Nat.mul_le_mul_left _ (Nat.pow_le_pow_right (by omega) (by omega))
    · refine .inl ⟨(2 ^ 52 + binary64Fraction b) * 2 ^ (binary64Exponent b - 1 - u), ?_⟩
      rw [Nat.mul_assoc, ← pow_add, Nat.sub_add_cancel hge]

end Sys2Proof.Machine
end

