-- ==== Sys2Proof/Laws/Config.lean ====
section
/-!
SUPPORT. What is known of the machine's parameters: their admissible range and the one decided value (00_scope R7).
-/
namespace Sys2Proof

theorem Config.params_legal : Config.params.Legal := by
  have hb := Config.sampleBitsLessOne.isLt
  have hy := Config.maxNyHalvesLessTwo.isLt
  have hx := Config.maxNxHalvesLessTwo.isLt
  refine ⟨⟨?_, ?_⟩, ⟨?_, ?_, ?_⟩, ⟨?_, ?_, ?_⟩⟩ <;> simp only [Config.params] <;> omega

@[simp] theorem Config.params_subGMode : Config.params.subGMode = .exact := rfl

end Sys2Proof
end

