-- ==== Sys2Proof/Laws/State.lean ====
section
/-!
SUPPORT. Beside State: for each update of Machine/Ops.lean and each field, what the field holds afterwards.
-/
namespace Sys2Proof.Machine

variable (s : State)

/-! recordFault (R38, R178) -/
@[simp] theorem State.recordFault_cmd (e : HostFault) : (s.recordFault e).cmd = s.cmd := rfl
@[simp] theorem State.recordFault_status (e : HostFault) : (s.recordFault e).status = s.status := rfl
@[simp] theorem State.recordFault_ny (e : HostFault) : (s.recordFault e).ny = s.ny := rfl
@[simp] theorem State.recordFault_nx (e : HostFault) : (s.recordFault e).nx = s.nx := rfl
@[simp] theorem State.recordFault_mem (e : HostFault) : (s.recordFault e).mem = s.mem := rfl
@[simp] theorem State.recordFault_faults (e : HostFault) : (s.recordFault e).faults = s.faults ++ [e] := rfl
@[simp] theorem State.recordFault_pending (e : HostFault) : (s.recordFault e).pending = s.pending := rfl
@[simp] theorem State.recordFault_replies (e : HostFault) : (s.recordFault e).replies = s.replies := rfl

/-! reply (R161) -/
@[simp] theorem State.reply_cmd (r : Reply) : (s.reply r).cmd = s.cmd := rfl
@[simp] theorem State.reply_status (r : Reply) : (s.reply r).status = s.status := rfl
@[simp] theorem State.reply_ny (r : Reply) : (s.reply r).ny = s.ny := rfl
@[simp] theorem State.reply_nx (r : Reply) : (s.reply r).nx = s.nx := rfl
@[simp] theorem State.reply_mem (r : Reply) : (s.reply r).mem = s.mem := rfl
@[simp] theorem State.reply_faults (r : Reply) : (s.reply r).faults = s.faults := rfl
@[simp] theorem State.reply_pending (r : Reply) : (s.reply r).pending = s.pending := rfl
@[simp] theorem State.reply_replies (r : Reply) : (s.reply r).replies = s.replies ++ [r] := rfl

/-! installFrame (R150) -/
@[simp] theorem State.installFrame_cmd (f : Frame) : (s.installFrame f).cmd = s.cmd := rfl
@[simp] theorem State.installFrame_status (f : Frame) : (s.installFrame f).status = s.status := rfl
@[simp] theorem State.installFrame_ny (f : Frame) : (s.installFrame f).ny = BitVec.ofNat 32 f.ny := rfl
@[simp] theorem State.installFrame_nx (f : Frame) : (s.installFrame f).nx = BitVec.ofNat 32 f.nx := rfl
@[simp] theorem State.installFrame_mem (f : Frame) : (s.installFrame f).mem = { s.mem with frame := some f } := rfl
@[simp] theorem State.installFrame_faults (f : Frame) : (s.installFrame f).faults = s.faults := rfl
@[simp] theorem State.installFrame_pending (f : Frame) : (s.installFrame f).pending = s.pending := rfl
@[simp] theorem State.installFrame_replies (f : Frame) : (s.installFrame f).replies = s.replies := rfl

/-! startCommand (R151) -/
@[simp] theorem State.startCommand_cmd (w : Word) : (s.startCommand w).cmd = w := rfl
@[simp] theorem State.startCommand_status (w : Word) : (s.startCommand w).status = statusBusy := rfl
@[simp] theorem State.startCommand_ny (w : Word) : (s.startCommand w).ny = s.ny := rfl
@[simp] theorem State.startCommand_nx (w : Word) : (s.startCommand w).nx = s.nx := rfl
@[simp] theorem State.startCommand_mem (w : Word) : (s.startCommand w).mem = { s.mem with image := none } := rfl
@[simp] theorem State.startCommand_faults (w : Word) : (s.startCommand w).faults = s.faults := rfl
@[simp] theorem State.startCommand_pending (w : Word) : (s.startCommand w).pending = s.pending := rfl
@[simp] theorem State.startCommand_replies (w : Word) : (s.startCommand w).replies = s.replies := rfl

/-! completeImage (R157) -/
@[simp] theorem State.completeImage_cmd (img : Image) : (s.completeImage img).cmd = s.cmd := rfl
@[simp] theorem State.completeImage_status (img : Image) : (s.completeImage img).status = statusDone := rfl
@[simp] theorem State.completeImage_ny (img : Image) : (s.completeImage img).ny = s.ny := rfl
@[simp] theorem State.completeImage_nx (img : Image) : (s.completeImage img).nx = s.nx := rfl
@[simp] theorem State.completeImage_mem (img : Image) : (s.completeImage img).mem = { s.mem with image := some img } := rfl
@[simp] theorem State.completeImage_faults (img : Image) : (s.completeImage img).faults = s.faults := rfl
@[simp] theorem State.completeImage_pending (img : Image) : (s.completeImage img).pending = s.pending := rfl
@[simp] theorem State.completeImage_replies (img : Image) : (s.completeImage img).replies = s.replies := rfl

/-! raiseError (R158) -/
@[simp] theorem State.raiseError_cmd (e : CommandError) : (s.raiseError e).cmd = s.cmd := rfl
@[simp] theorem State.raiseError_status (e : CommandError) : (s.raiseError e).status = statusError e := rfl
@[simp] theorem State.raiseError_ny (e : CommandError) : (s.raiseError e).ny = s.ny := rfl
@[simp] theorem State.raiseError_nx (e : CommandError) : (s.raiseError e).nx = s.nx := rfl
@[simp] theorem State.raiseError_mem (e : CommandError) : (s.raiseError e).mem = { s.mem with image := none } := rfl
@[simp] theorem State.raiseError_faults (e : CommandError) : (s.raiseError e).faults = s.faults := rfl
@[simp] theorem State.raiseError_pending (e : CommandError) : (s.raiseError e).pending = s.pending := rfl
@[simp] theorem State.raiseError_replies (e : CommandError) : (s.raiseError e).replies = s.replies := rfl

/-! resetEvent (R190) -/
@[simp] theorem State.resetEvent_cmd : (s.resetEvent).cmd = 0 := rfl
@[simp] theorem State.resetEvent_status : (s.resetEvent).status = 0 := rfl
@[simp] theorem State.resetEvent_ny : (s.resetEvent).ny = 0 := rfl
@[simp] theorem State.resetEvent_nx : (s.resetEvent).nx = 0 := rfl
@[simp] theorem State.resetEvent_mem : (s.resetEvent).mem = { frame := none, image := none } := rfl
@[simp] theorem State.resetEvent_faults : (s.resetEvent).faults = s.faults := rfl
@[simp] theorem State.resetEvent_pending : (s.resetEvent).pending = s.pending := rfl
@[simp] theorem State.resetEvent_replies : (s.resetEvent).replies = s.replies := rfl

/-! The fields of the reset state (R40) -/
@[simp] theorem State.reset_cmd : State.reset.cmd = 0 := rfl
@[simp] theorem State.reset_status : State.reset.status = 0 := rfl
@[simp] theorem State.reset_ny : State.reset.ny = 0 := rfl
@[simp] theorem State.reset_nx : State.reset.nx = 0 := rfl
@[simp] theorem State.reset_mem : State.reset.mem = { frame := none, image := none } := rfl
@[simp] theorem State.reset_faults : State.reset.faults = [] := rfl
@[simp] theorem State.reset_pending : State.reset.pending = [] := rfl
@[simp] theorem State.reset_replies : State.reset.replies = [] := rfl

/-! The STATUS words the block writes and what their STATE field says (R24, R151, R157, R158) -/
@[simp] theorem statusState_busy : statusState statusBusy = .busy := by decide
@[simp] theorem statusState_done : statusState statusDone = .done := by decide
@[simp] theorem statusState_zero : statusState 0#32 = .idle := by decide
@[simp] theorem statusState_error (e : CommandError) : statusState (statusError e) = .error := by
  cases e <;> decide

end Sys2Proof.Machine
end

