-- ==== Sys2Proof/Laws/Ops.lean ====
section
/-!
SUPPORT. One lemma per shared operation, saying what it can do: reading a sample, building an image, running a decoder,
completing a command, and that every memory operation keeps the canonical form (10_state R30, R32).
-/
namespace Sys2Proof.Machine

/-- `allSome` answers exactly when every entry is there, with the entries. -/
theorem allSome_eq_some {α : Type} {os : List (Option α)} {xs : List α} :
    allSome os = some xs ↔ os = xs.map some := by
  induction os generalizing xs with
  | nil => cases xs <;> simp [allSome]
  | cons o os ih =>
    cases o with
    | none => cases xs <;> simp [allSome]
    | some x =>
      cases xs with
      | nil => simp [allSome]
      | cons y ys =>
        simp only [allSome, Option.map_eq_some_iff, List.cons.injEq, List.map_cons, Option.some.injEq]
        constructor
        · rintro ⟨a, h, rfl, rfl⟩
          exact ⟨rfl, ih.mp h⟩
        · rintro ⟨rfl, h⟩
          exact ⟨ys, ih.mpr h, rfl, rfl⟩

/-- `allSome` of entries that are all there answers. -/
theorem allSome_of_forall_isSome {α : Type} {os : List (Option α)} (h : ∀ o ∈ os, o.isSome = true) :
    ∃ xs, allSome os = some xs := by
  induction os with
  | nil => exact ⟨[], rfl⟩
  | cons o os ih =>
    obtain ⟨x, rfl⟩ := Option.isSome_iff_exists.mp (h o (by simp))
    obtain ⟨xs, hxs⟩ := ih fun o ho => h o (by simp [ho])
    exact ⟨x :: xs, by simp [allSome, hxs]⟩

theorem inBounds_iff {ny nx : Nat} {r c : Int} :
    inBounds ny nx r c = true ↔ (0 ≤ r ∧ r < ny) ∧ (0 ≤ c ∧ c < nx) := by
  simp [inBounds, and_assoc]

/-- A complete frame has a sample at every position inside it (R52, R58). -/
theorem Frame.sample_isSome {f : Frame} (hf : f.Complete) {r c : Int} (h : inBounds f.ny f.nx r c = true) :
    (f.sample r c).isSome = true := by
  have hb := h
  obtain ⟨⟨hr0, hr⟩, hc0, hc⟩ := inBounds_iff.mp h
  have hr' : r.toNat < f.ny := by omega
  have hc' : c.toNat < f.nx := by omega
  have hlt : r.toNat * f.nx + c.toNat < f.samples.length := by
    rw [hf]
    calc r.toNat * f.nx + c.toNat < r.toNat * f.nx + f.nx := by omega
      _ = (r.toNat + 1) * f.nx := by ring
      _ ≤ f.ny * f.nx := Nat.mul_le_mul_right _ hr'
  simp [Frame.sample, Frame.element, hb, hlt]

/-- A frame has no sample outside its shape (R58). -/
theorem Frame.sample_outside {f : Frame} {r c : Int} (h : inBounds f.ny f.nx r c = false) : f.sample r c = none := by
  simp [Frame.sample, h]

/-- A sample read is one of the frame's samples. -/
theorem Frame.sample_mem {f : Frame} {r c : Int} {v : Nat} (h : f.sample r c = some v) : v ∈ f.samples := by
  simp only [Frame.sample, Frame.element] at h
  split at h
  · exact List.mem_of_getElem? h
  · cases h

/-- An image is built exactly when every one of its elements is there; it is then fully populated, element
(r, c, k) being the one computed for (r, c, k) (R53, R157). -/
theorem buildImage_eq_some {kind : ImageKind} {rows cols : Nat} {elem : Nat → Nat → Channel → Option Element}
    {img : Image} (h : buildImage kind rows cols elem = some img) :
    img.kind = kind ∧ img.rows = rows ∧ img.cols = cols ∧ img.elems.length = rows * cols * 3 ∧
      ∀ r c k, r < rows → c < cols → img.element r c k.index = elem r c k := by
  obtain ⟨es, hes, rfl⟩ := Option.map_eq_some_iff.mp h
  have hmap := allSome_eq_some.mp hes
  have hlen : es.length = rows * cols * 3 := by
    simpa using (congrArg List.length hmap).symm
  refine ⟨rfl, rfl, rfl, hlen, fun r c k hr hc => ?_⟩
  have hk : k.index < 3 := by cases k <;> simp [Channel.index]
  have hlt : (r * cols + c) * 3 + k.index < rows * cols * 3 := by
    have : r * cols + c + 1 ≤ rows * cols := by
      calc r * cols + c + 1 ≤ r * cols + cols := by omega
        _ = (r + 1) * cols := by ring
        _ ≤ rows * cols := Nat.mul_le_mul_right _ hr
    omega
  have h3 : ((r * cols + c) * 3 + k.index) / 3 = r * cols + c := by omega
  have hm : ((r * cols + c) * 3 + k.index) % 3 = k.index := by omega
  have hr' : (r * cols + c) / cols = r := by
    rw [Nat.mul_comm, Nat.mul_add_div (by omega), Nat.div_eq_of_lt hc, Nat.add_zero]
  have hc' : (r * cols + c) % cols = c := by
    rw [Nat.mul_comm, Nat.mul_add_mod, Nat.mod_eq_of_lt hc]
  have hkk : Channel.ofIndex k.index = k := by cases k <;> rfl
  have hget := congrArg (fun l => l[(r * cols + c) * 3 + k.index]?) hmap
  simp only [List.getElem?_map, List.getElem?_range hlt, Option.map_some, h3, hm, hr', hc', hkk] at hget
  simp only [Image.element]
  cases he : es[(r * cols + c) * 3 + k.index]? with
  | none => rw [he] at hget; cases hget
  | some e => rw [he] at hget; simpa using hget.symm

/-- An image whose every element is there is built. -/
theorem buildImage_isSome {kind : ImageKind} {rows cols : Nat} {elem : Nat → Nat → Channel → Option Element}
    (h : ∀ r c k, r < rows → c < cols → (elem r c k).isSome = true) :
    ∃ img, buildImage kind rows cols elem = some img := by
  have hall : ∀ o ∈ (List.range (rows * cols * 3)).map
      (fun i => elem (i / 3 / cols) (i / 3 % cols) (Channel.ofIndex (i % 3))), o.isSome = true := by
    intro o ho
    obtain ⟨i, hi, rfl⟩ := List.mem_map.mp ho
    have hi' : i / 3 < rows * cols := by have := List.mem_range.mp hi; omega
    have hcols : 0 < cols := by
      rcases Nat.eq_zero_or_pos cols with h0 | h0
      · simp [h0] at hi'
      · exact h0
    exact h _ _ _ ((Nat.div_lt_iff_lt_mul hcols).mpr hi') (Nat.mod_lt _ hcols)
  obtain ⟨es, hes⟩ := allSome_of_forall_isSome hall
  exact ⟨_, by simp only [buildImage, hes, Option.map_some]; rfl⟩

/-- Everything running a decoder can do (R155, R157, R158): with no frame or with a read outside it, stop; otherwise
the command completes with the decoder's result. -/
theorem runDecoder_eq_next {decoder : Frame → Option (Except CommandError Image)} {s t : State} :
    runDecoder decoder s = .next t ↔
      ∃ f result, s.mem.frame = some f ∧ decoder f = some result ∧ t = s.complete result := by
  unfold runDecoder
  cases hf : s.mem.frame with
  | none => simp
  | some f =>
    cases hd : decoder f with
    | none => simp [hd]
    | some result => simp [hd, eq_comm]

/-- Completing a command writes STATUS and OUT and nothing else (R155). -/
theorem State.complete_frame (s : State) (result : Except CommandError Image) :
    s.complete result =
      { s with status := (s.complete result).status, mem := { s.mem with image := (s.complete result).mem.image } } := by
  cases result <;> rfl

/-! Every memory operation keeps the canonical form of the buffers (R30, R32). -/

theorem Memory.wf_iff {p : Params} {m : Memory} :
    m.wf p = true ↔ (∀ f, m.frame = some f → f.wf p = true) ∧ (∀ img, m.image = some img → img.wf p = true) := by
  rcases m with ⟨_ | f, _ | img⟩ <;> simp [Memory.wf]

theorem Frame.wf_iff {p : Params} {f : Frame} :
    f.wf p = true ↔ f.ny ≤ p.maxNy ∧ f.nx ≤ p.maxNx ∧ f.Complete ∧ ∀ v ∈ f.samples, v < 2 ^ p.sampleBits := by
  simp [Frame.wf, and_assoc]

theorem reset_mem_wf (p : Params) : State.reset.mem.wf p = true := rfl

theorem installFrame_keeps_wf {p : Params} {s : State} {f : Frame} (h : s.mem.wf p = true) (hf : f.wf p = true) :
    (s.installFrame f).mem.wf p = true := by
  rw [Memory.wf_iff] at h ⊢
  simpa [hf] using h.2

theorem startCommand_keeps_wf {p : Params} {s : State} {w : Word} (h : s.mem.wf p = true) :
    (s.startCommand w).mem.wf p = true := by
  rw [Memory.wf_iff] at h ⊢
  simpa using h.1

theorem completeImage_keeps_wf {p : Params} {s : State} {img : Image} (h : s.mem.wf p = true)
    (hi : img.wf p = true) : (s.completeImage img).mem.wf p = true := by
  rw [Memory.wf_iff] at h ⊢
  simpa [hi] using h.1

theorem raiseError_keeps_wf {p : Params} {s : State} {e : CommandError} (h : s.mem.wf p = true) :
    (s.raiseError e).mem.wf p = true := by
  rw [Memory.wf_iff] at h ⊢
  simpa using h.1

theorem resetEvent_keeps_wf {p : Params} {s : State} : s.resetEvent.mem.wf p = true := rfl

end Sys2Proof.Machine
end

