-- ==== Sys2Proof/Laws/HostPort.lean ====
section
/-!
SUPPORT. What a host action can do, said once (44_external_interface R150 to R154; 60_exceptions R178).
-/
namespace Sys2Proof.Machine

theorem badSamples_eq_nil {p : Params} {v : List Nat} :
    badSamples p v = [] ↔ ∀ x ∈ v, x < 2 ^ p.sampleBits := by
  simp only [badSamples, List.filter_eq_nil_iff, List.mem_range]
  constructor
  · intro h x hx
    obtain ⟨i, hi, rfl⟩ := List.mem_iff_getElem.mp hx
    simpa [List.getD_eq_getElem?_getD, hi] using h i hi
  · intro h i hi
    simpa [List.getD_eq_getElem?_getD, hi] using h v[i] (List.getElem_mem hi)

/-- The index SAMPLE_OUT_OF_RANGE records is that of an offending sample, whichever is picked (assumption 6). -/
theorem pickedBadSample_spec {p : Params} {v : List Nat} (h : badSamples p v ≠ []) :
    ∃ x, v[pickedBadSample (badSamples p v)]? = some x ∧ 2 ^ p.sampleBits ≤ x := by
  have hpos := List.length_pos_of_ne_nil h
  have hlt := Nat.mod_lt (Config.outOfRangePick (badSamples p v)) hpos
  have hmem : pickedBadSample (badSamples p v) ∈ badSamples p v := by
    simp [pickedBadSample, List.getD_eq_getElem?_getD, hlt]
  generalize pickedBadSample (badSamples p v) = i at hmem ⊢
  obtain ⟨hi, hb⟩ := List.mem_filter.mp hmem
  have hi' : i < v.length := List.mem_range.mp hi
  exact ⟨v[i], by simp [hi'], by simpa [List.getD_eq_getElem?_getD, hi'] using hb⟩

/-- The conditions under which LOAD_FRAME installs its frame (R150). -/
structure LoadAccepted (p : Params) (ny nx : Nat) (v : List Nat) (s : State) : Prop where
  not_busy : s.busy = false
  ny_le : ny ≤ p.maxNy
  nx_le : nx ≤ p.maxNx
  length_eq : v.length = ny * nx
  in_range : ∀ x ∈ v, x < 2 ^ p.sampleBits

/-- Everything LOAD_FRAME can do (R150). -/
theorem loadFrame_cases (p : Params) (ny nx : Nat) (v : List Nat) (s : State) :
    (∃ e, loadFrame p ny nx v s = s.recordFault e) ∨
      (LoadAccepted p ny nx v s ∧ loadFrame p ny nx v s = s.installFrame ⟨ny, nx, v⟩) := by
  unfold loadFrame
  split
  · exact .inl ⟨_, rfl⟩
  split
  · exact .inl ⟨_, rfl⟩
  split
  · exact .inl ⟨_, rfl⟩
  split
  · exact .inl ⟨_, rfl⟩
  · rename_i hb hs hl hr
    exact .inr ⟨⟨by simpa using hb, by omega, by omega, by omega, badSamples_eq_nil.mp (by simpa using hr)⟩, rfl⟩

/-- Everything a register write can do (R151, R152). -/
theorem writeReg_cases (n : Nat) (w : Word) (s : State) :
    (∃ e, writeReg n w s = s.recordFault e) ∨
      (n = 0 ∧ s.busy = false ∧ s.mem.frame.isSome = true ∧ writeReg n w s = s.startCommand w) := by
  unfold writeReg writeCmd
  split
  · split
    · exact .inl ⟨_, rfl⟩
    split
    · exact .inl ⟨_, rfl⟩
    · rename_i hn hb hf
      exact .inr ⟨hn, by simpa using hb, Option.isSome_iff_ne_none.mpr hf, rfl⟩
  split <;> exact .inl ⟨_, rfl⟩

/-- Everything a register read can do (R153). -/
theorem readRegister_cases (n : Nat) (s : State) :
    (∃ e, readRegister n s = s.recordFault e) ∨ ∃ r, readRegister n s = s.reply r := by
  unfold readRegister
  split
  · exact .inr ⟨_, rfl⟩
  · exact .inl ⟨_, rfl⟩

/-- Everything a READ_OUT that does not stop can do (R154). -/
theorem readOut_cases {r c k : Nat} {s t : State} (h : readOut r c k s = .next t) :
    (∃ e, t = s.recordFault e) ∨ ∃ rep, t = s.reply rep := by
  unfold readOut at h
  split at h
  · split at h
    · cases h
      exact .inl ⟨_, rfl⟩
    split at h
    · cases h
      exact .inr ⟨_, rfl⟩
    · cases h
  · cases h
    exact .inl ⟨_, rfl⟩

/-- The bytes of a word on a bus are four, and carry that word back, in either byte order (R51). -/
theorem wordToBytes_length (order : ByteOrder) (w : Word) : (wordToBytes order w).length = 4 := by cases order <;> rfl

theorem bytesToWord_wordToBytes (order : ByteOrder) (w : Word) : bytesToWord order (wordToBytes order w) = some w := by
  have joined : w.extractLsb' 24 8 ++ w.extractLsb' 16 8 ++ w.extractLsb' 8 8 ++ w.extractLsb' 0 8 = w := by
    apply BitVec.eq_of_getLsbD_eq
    intro i hi
    simp only [BitVec.getLsbD_append, BitVec.getLsbD_extractLsb']
    by_cases h1 : i < 8
    · simp [h1]
    by_cases h2 : i - 8 < 8
    · simp [h1, h2, show 8 + (i - 8) = i by omega]
    by_cases h3 : i - 8 - 8 < 8
    · simp [h1, h2, h3, show 16 + (i - 8 - 8) = i by omega]
    · simp [h1, h2, h3, show 24 + (i - 8 - 8 - 8) = i by omega, show i - 8 - 8 - 8 < 8 by omega]
  cases order <;> simp [bytesToWord, wordToBytes, joined]

/-- The bus address of register n is aligned, and is register n's (R56). -/
theorem busAligned_register (p : Params) (n : Nat) : busAligned p (p.regBase + 4 * n) 4 = true := by simp [busAligned]

theorem busRegister_register (p : Params) (n : Nat) : busRegister p (p.regBase + 4 * n) = n := by
  unfold busRegister
  omega

/-- Only register 0 is at REG_BASE, and only a whole word there is aligned (R56). -/
theorem busRegister_eq_zero {p : Params} {addr size : Nat} (ha : busAligned p addr size = true)
    (hn : busRegister p addr = 0) : addr = p.regBase ∧ size = 4 := by
  simp only [busAligned, Bool.and_eq_true, beq_iff_eq, decide_eq_true_eq] at ha
  unfold busRegister at hn
  omega

/-- The writes that reach CMD: WRITE 0, or a whole word at REG_BASE (R56, R151). -/
def WritesCmd (p : Params) (w : Word) : HostAction → Prop
  | .write n w' => n = 0 ∧ w' = w
  | .busWrite addr bytes => addr = p.regBase ∧ bytes.length = 4 ∧ bytesToWord p.hostByteOrder bytes = some w
  | .loadFrame _ _ _ => False
  | .read _ => False
  | .readOut _ _ _ => False
  | .busRead _ _ => False

/-- Everything a host action that does not stop can do: record a fault, hand back a value, install a frame, or start a
command. -/
theorem hostAct_cases {p : Params} {a : HostAction} {s t : State} (h : hostAct p a s = .next t) :
    (∃ e, t = s.recordFault e) ∨ (∃ r, t = s.reply r) ∨
      (∃ ny nx v, a = .loadFrame ny nx v ∧ LoadAccepted p ny nx v s ∧ t = s.installFrame ⟨ny, nx, v⟩) ∨
      ∃ w, WritesCmd p w a ∧ s.busy = false ∧ s.mem.frame.isSome = true ∧ t = s.startCommand w := by
  cases a with
  | loadFrame ny nx v =>
    cases h
    rcases loadFrame_cases p ny nx v s with h | ⟨ha, h⟩
    · exact .inl h
    · exact .inr (.inr (.inl ⟨ny, nx, v, rfl, ha, h⟩))
  | write n w =>
    cases h
    rcases writeReg_cases n w s with h | ⟨hn, hb, hf, h⟩
    · exact .inl h
    · exact .inr (.inr (.inr ⟨w, ⟨hn, rfl⟩, hb, hf, h⟩))
  | read n =>
    cases h
    rcases readRegister_cases n s with h | h
    · exact .inl h
    · exact .inr (.inl h)
  | readOut r c k =>
    rcases readOut_cases h with h | h
    · exact .inl h
    · exact .inr (.inl h)
  | busWrite addr bytes =>
    cases h
    unfold busWrite
    split
    · rename_i w ha hw
      rcases writeReg_cases (busRegister p addr) w s with h | ⟨hn, hb, hf, h⟩
      · exact .inl h
      · obtain ⟨hbase, hlen⟩ := busRegister_eq_zero ha hn
        exact .inr (.inr (.inr ⟨w, ⟨hbase, hlen, hw⟩, hb, hf, h⟩))
    · exact .inl ⟨_, rfl⟩
  | busRead addr size =>
    cases h
    unfold busRead
    split
    · split
      · exact .inr (.inl ⟨_, rfl⟩)
      · exact .inl ⟨_, rfl⟩
    · exact .inl ⟨_, rfl⟩

/-- A host action stops only in READ_OUT, and only in an image that lists too few elements (assumption 3). -/
theorem hostAct_isNext {p : Params} {a : HostAction} {s : State}
    (h : ∀ img, s.mem.image = some img → img.elems.length = img.rows * img.cols * 3) :
    ∃ t, hostAct p a s = .next t := by
  cases a with
  | readOut r c k =>
    simp only [hostAct, readOut]
    split
    · rename_i img _ himg
      split
      · exact ⟨_, rfl⟩
      · rename_i hrange
        have hlt : (r * img.cols + c) * 3 + k < img.elems.length := by
          rw [h img himg]
          have hr : r + 1 ≤ img.rows := by omega
          have : r * img.cols + c + 1 ≤ img.rows * img.cols := by
            calc r * img.cols + c + 1 ≤ r * img.cols + img.cols := by omega
              _ = (r + 1) * img.cols := by ring
              _ ≤ img.rows * img.cols := Nat.mul_le_mul_right _ hr
          omega
        simp only [Image.element, hlt, List.getElem?_eq_getElem]
        exact ⟨_, rfl⟩
    · exact ⟨_, rfl⟩
  | _ => exact ⟨_, rfl⟩

end Sys2Proof.Machine
end

