-- ==== Sys2Proof/Laws/Engine.lean ====
section
/-!
SUPPORT. What one step can do, said once: the commands, ENGINE's step and the turns (44_external_interface R155;
20_memory R60).
-/
namespace Sys2Proof.Machine

/-- The decoder each command runs (R100, R130, R131). -/
def decoderOf : Instr → Frame → Option (Except CommandError Image)
  | .decodeSubsampled => execSub Config.params
  | .decodeFull => execFull Config.params false
  | .decodeFullDup => execFull Config.params true

/-- exec runs the command's decoder and completes the command with its result. -/
theorem exec_eq_runDecoder (i : Instr) (s : State) : exec i s = runDecoder (decoderOf i) s := by
  cases i <;> rfl

/-- Everything ENGINE's step can do: complete the decoded command with its decoder's result, or end a reserved word in
INVALID_COMMAND (R155, R156). -/
theorem engineStep_cases {s t : State} (h : engineStep s = .next t) :
    (∃ i f result, decode s.cmd = .ok i ∧ s.mem.frame = some f ∧ decoderOf i f = some result ∧
        t = s.complete result) ∨
      ((∃ e, decode s.cmd = .error e) ∧ t = s.raiseError .invalidCommand) := by
  unfold engineStep at h
  split at h
  · rename_i i hi
    rw [exec_eq_runDecoder, runDecoder_eq_next] at h
    obtain ⟨f, result, hf, hr, ht⟩ := h
    exact .inl ⟨i, f, result, hi, hf, hr, ht⟩
  · rename_i e he
    cases h
    exact .inr ⟨⟨e, he⟩, rfl⟩

/-- One step is a step of the agent whose turn it is, up to the events that are left: ENGINE's step while BUSY, a host
action, a read of STATUS, a reset, or nothing. -/
theorem step_cases {s t : State} (h : step s = .next t) :
    ∃ rest, (s.busy = true ∧ engineStep { s with pending := rest } = .next t) ∨
      (∃ a tail, s.pending = .host a :: tail ∧ rest = tail ∧
        hostAct Config.params a { s with pending := tail } = .next t) ∨
      t = { poll s with pending := rest } ∨
      (s.pending = .reset :: rest ∧ t = State.resetEvent { s with pending := rest }) ∨
      (s.busy = false ∧ t = { s with pending := rest }) := by
  unfold step turn at h
  split at h
  · rename_i hp
    refine ⟨s.pending, ?_⟩
    unfold engineTurn at h
    split at h
    · rename_i hb
      exact .inl ⟨hb, h⟩
    · rename_i hb
      cases h
      exact .inr (.inr (.inr (.inr ⟨by simpa using hb, rfl⟩)))
  · rename_i rest hp
    refine ⟨rest, ?_⟩
    unfold engineTurn at h
    split at h
    · rename_i hb
      exact .inl ⟨hb, h⟩
    · rename_i hb
      cases h
      exact .inr (.inr (.inr (.inr ⟨by simpa [State.busy] using hb, rfl⟩)))
  · rename_i rest hp
    cases h
    exact ⟨rest, .inr (.inr (.inr (.inl ⟨hp, rfl⟩)))⟩
  · rename_i a rest hp
    exact ⟨rest, .inr (.inl ⟨a, rest, hp, rfl, h⟩)⟩
  · rename_i spins rest hp
    unfold waitTurn at h
    split at h
    · rename_i hb
      split at h
      · exact ⟨s.pending, .inl ⟨hb, h⟩⟩
      · cases h
        exact ⟨_, .inr (.inr (.inl rfl))⟩
    · cases h
      exact ⟨_, .inr (.inr (.inl rfl))⟩
  · rename_i rows cols rest hp
    cases h
    unfold readBackTurn
    split <;> exact ⟨_, .inr (.inr (.inl rfl))⟩

/-- A poll only adds a reply. -/
theorem poll_eq (s : State) : poll s = s.reply (.register 1 (statusRead s.status)) := rfl

end Sys2Proof.Machine
end

