-- ==== Sys2Proof/Laws/PerInstr.lean ====
section
/-!
SUPPORT. Laws per instruction: the fields of each command's encoded word (30_encoding R71, R74).
-/
namespace Sys2Proof.Laws.EncodingFields

/-- The encoded word is well formed, has no reserved bit set, and carries the command's OP and DUP. -/
def Statement (i : Instr) : Prop :=
  i.wellFormed = true ∧ fieldRsvd (encode i) = 0 ∧ (fieldOp (encode i), fieldDup (encode i)) = encodeFields i

theorem decodeSubsampled : Statement .decodeSubsampled := by unfold Statement; decide

theorem decodeFull : Statement .decodeFull := by unfold Statement; decide

theorem decodeFullDup : Statement .decodeFullDup := by unfold Statement; decide

end Sys2Proof.Laws.EncodingFields
end

