-- ==== Sys2Proof/Laws/Pipeline.lean ====
section
/-!
SUPPORT. The grid and the neighbour-averaging pipeline, said once: roles by parity, position classes, which neighbours lie
inside, and what a mean over them is (40_cfa_grid_model; 42_neighbor_averaging_pipeline R110 to R119).
-/
namespace Sys2Proof.Machine

/-- The role map by the parities of the position (R90). -/
theorem role_cases (r c : Nat) :
    (r % 2 = 0 ∧ c % 2 = 0 ∧ role r c = .g1) ∨ (r % 2 = 0 ∧ c % 2 = 1 ∧ role r c = .r) ∨
      (r % 2 = 1 ∧ c % 2 = 0 ∧ role r c = .b) ∨ (r % 2 = 1 ∧ c % 2 = 1 ∧ role r c = .g2) := by
  rcases Nat.mod_two_eq_zero_or_one r with h | h <;> rcases Nat.mod_two_eq_zero_or_one c with h' | h' <;>
    simp [role, h, h', roleTable]

theorem classOf_corner_iff {ny nx r c : Nat} :
    classOf ny nx r c = .corner ↔ (r = 0 ∨ r + 1 = ny) ∧ (c = 0 ∨ c + 1 = nx) := by
  unfold classOf
  split
  · simpa
  · rename_i h
    split <;> simpa using h

theorem classOf_interior_iff {ny nx r c : Nat} :
    classOf ny nx r c = .interior ↔ ¬ (r = 0 ∨ r + 1 = ny ∨ c = 0 ∨ c + 1 = nx) := by
  unfold classOf
  split
  · rename_i h
    simp only [reduceCtorEq, false_iff, not_not]
    omega
  · split
    · rename_i h
      simp only [reduceCtorEq, false_iff, not_not]
      exact h
    · rename_i h
      simpa only [true_iff] using h

/-- The surviving offsets are those of the template that stay inside (R113). -/
theorem mem_surviving {ny nx r c : Nat} {k : Channel} {o : Offset} :
    o ∈ surviving ny nx r c k ↔
      o ∈ template (role r c) k ∧ inBounds ny nx (r + o.dr) (c + o.dc) = true := by
  simp [surviving]

/-- A complete frame has every neighbour that lies inside it. -/
theorem Frame.neighbour_isSome {f : Frame} (hf : f.Complete) {r c : Nat} {o : Offset}
    (h : inBounds f.ny f.nx (r + o.dr) (c + o.dc) = true) : (f.neighbour r c o).isSome = true :=
  Frame.sample_isSome hf h

/-- A mean over neighbours answers exactly when every one of them is in the frame, with Mean of their sum and
number (R114, R115). -/
theorem meanOver_eq_some {f : Frame} {r c : Nat} {os : List Offset} {b : Binary64} :
    meanOver f r c os = some b ↔
      ∃ vs : List Nat, os.map (f.neighbour r c) = vs.map some ∧ b = mean vs.sum vs.length := by
  unfold meanOver
  rw [Option.map_eq_some_iff]
  constructor
  · rintro ⟨vs, h, rfl⟩
    exact ⟨vs, allSome_eq_some.mp h, rfl⟩
  · rintro ⟨vs, h, rfl⟩
    exact ⟨vs, allSome_eq_some.mpr h, rfl⟩

/-- A mean over neighbours that all lie inside a complete frame answers. -/
theorem meanOver_isSome {f : Frame} (hf : f.Complete) {r c : Nat} {os : List Offset}
    (h : ∀ o ∈ os, inBounds f.ny f.nx (r + o.dr) (c + o.dc) = true) : (meanOver f r c os).isSome = true := by
  obtain ⟨vs, hvs⟩ := allSome_of_forall_isSome (os := os.map (f.neighbour r c)) fun o ho => by
    obtain ⟨o', ho', rfl⟩ := List.mem_map.mp ho
    exact Frame.neighbour_isSome hf (h o' ho')
  simp [meanOver, hvs]

/-- What a corner copies is the sample at its source (R116). -/
theorem cornerCopy_eq_some {p : Params} {f : Frame} {r c : Nat} {k : Channel} {v : Nat}
    (h : cornerCopy p f r c k = some v) : f.neighbour r c (cornerSrc p (role r c) k) = some v := by
  unfold cornerCopy at h
  simp only at h
  split at h
  · rename_i a b ha hb
    cases h
    unfold cornerSrc pickCorner
    cases cornerChoice p (role r c) <;> assumption
  · cases h

/-- An interior pixel has all its neighbours inside, so it keeps its whole template (R114). -/
theorem inBounds_of_interior {ny nx r c : Nat} (hr : r < ny) (hc : c < nx) (h : classOf ny nx r c = .interior)
    {o : Offset} (ho : (-1 ≤ o.dr ∧ o.dr ≤ 1) ∧ (-1 ≤ o.dc ∧ o.dc ≤ 1)) :
    inBounds ny nx (r + o.dr) (c + o.dc) = true := by
  rw [classOf_interior_iff] at h
  rw [inBounds_iff]
  omega

/-- Every template offset is to one of the eight neighbours (R78, R112). -/
theorem template_offsets {ro : Role} {k : Channel} :
    ∀ o ∈ template ro k, (-1 ≤ o.dr ∧ o.dr ≤ 1) ∧ (-1 ≤ o.dc ∧ o.dc ≤ 1) := by
  cases ro <;> cases k <;> simp [template, horizontalPair, verticalPair, orthogonals, diagonals]

theorem surviving_interior {ny nx r c : Nat} {k : Channel} (hr : r < ny) (hc : c < nx)
    (h : classOf ny nx r c = .interior) : surviving ny nx r c k = template (role r c) k := by
  unfold surviving
  rw [List.filter_eq_self]
  exact fun o ho => inBounds_of_interior hr hc h (template_offsets o ho)

end Sys2Proof.Machine
end

