-- ==== Sys2Proof/Tests/Slice0.lean ====
section
/-!
SUPPORT. Tests of the model against the worked values of spec/95_test_vectors (each names its vector), the smoke test of
well-formedness, and a witness for the hypotheses of each statement of Certificates/Slice0/Obligations.lean.
-/
namespace Sys2Proof.Tests

open Sys2Proof.Machine Sys2Proof.Claims

/-! ## The frames, parameters and states of the vectors -/

/-- The parameters of 95's conventions: SAMPLE_BITS = 8, MAX_NY = MAX_NX = 8, EXACT. -/
def vectorParams : Params :=
  { sampleBits := 8, maxNy := 8, maxNx := 8, subGMode := .exact, cornerGAtR := .vertical, cornerGAtB := .vertical,
    dupTarget := .bAtR, dupPair := .nwSw, hostByteOrder := .little, regBase := 0x1000 }

/-- Frame E of 95 section 1. -/
def frameE : Frame := { ny := 4, nx := 4, samples := List.range 16 }

/-- Frame A of 95 section 4. -/
def frameA : Frame :=
  { ny := 4, nx := 4, samples := [12, 200, 7, 90, 33, 5, 250, 61, 140, 18, 77, 3, 9, 222, 41, 128] }

/-- The 2 × 2 frame of V-SUB-3. -/
def frameTwo : Frame := { ny := 2, nx := 2, samples := [10, 20, 30, 40] }

/-- A state with a frame loaded (the registers as LOAD_FRAME sets them). -/
def loaded (f : Frame) : State := State.reset.installFrame f

/-- The image of a decoder's result. -/
def imageOf : Option (Except CommandError Image) → Option Image
  | some (.ok img) => some img
  | _ => none

/-- The image OUT holds after a step. -/
def outOf : Host.Outcome State Fault Refusal → Option Image
  | .next t => t.mem.image
  | _ => none

def statusOf : Host.Outcome State Fault Refusal → Option Word
  | .next t => some t.status
  | _ => none

def faultsOf : Host.Outcome State Fault Refusal → Option (List HostFault)
  | .next t => some t.faults
  | _ => none

/-- The elements (r, c, 0..2) of an image. -/
def pixel (img : Option Image) (r c : Nat) : List (Option Element) :=
  [img.bind (·.element r c 0), img.bind (·.element r c 1), img.bind (·.element r c 2)]

/-- Three binary64 elements by their bits. -/
def bits3 (a b c : Binary64) : List (Option Element) := [some (.f64 a), some (.f64 b), some (.f64 c)]

/-! ## Well-formedness -/

theorem test_commands_wellFormed :
    [Instr.decodeSubsampled, .decodeFull, .decodeFullDup].all Instr.wellFormed = true := by decide

theorem test_illFormed_actions_refused :
    [HostAction.loadFrame 10 4 (List.replicate 40 0), .loadFrame 4 10 (List.replicate 40 0), .loadFrame 2 2 [1, 2, 3],
      .loadFrame 2 2 [1, 2, 3, 256], .write 1 0, .read 4, .readOut 0 0 3, .busWrite 0x1000 [0, 0],
      .busWrite 0x1004 [0, 0, 0, 0], .busRead 0x1002 4, .busRead 0x0FFC 4, .busRead 0x1010 4].all
      (fun a => !(a.wellFormed vectorParams)) = true := by decide

theorem test_illFormed_event_refused : Event.wellFormed vectorParams (.host (.read 4)) = false := by decide

theorem test_wellFormed_actions :
    [HostAction.loadFrame 2 2 [1, 2, 3, 255], .write 0 7, .read 3, .readOut 9 9 2, .busWrite 0x1000 [2, 0, 0, 0],
      .busRead 0x100C 4].all (·.wellFormed vectorParams) = true := by decide

/-! ## Decoding (V-ENC; the words are RSVD ++ DUP ++ OP of R71) -/

theorem test_decode_subsampled : decode (0b00000000000000000000000000000#29 ++ 0b0#1 ++ 0b01#2) = .ok .decodeSubsampled := by
  rfl

theorem test_decode_full : decode (0b00000000000000000000000000000#29 ++ 0b0#1 ++ 0b10#2) = .ok .decodeFull := by rfl

theorem test_decode_fullDup : decode (0b00000000000000000000000000000#29 ++ 0b1#1 ++ 0b10#2) = .ok .decodeFullDup := by rfl

theorem test_decode_reserved :
    [0x0, 0x3, 0x5, 0x7, 0x4, 0xA, 0x80000002, 0xFFFFFFFF].all (fun w : Word => (decode w).toOption.isNone) = true := by
  decide

theorem test_table_words :
    [1, 2, 6, 3].map (decodeTableWord 32) =
      [some .decodeSubsampled, some .decodeFull, some .decodeFullDup, none] := by decide

/-! ## The CFA grid and the shape checks (95 sections 2 and 3) -/

theorem test_roles : [role 3 2, role 6 7, role 101 100, role 1 1] = [.b, .r, .b, .g2] := by decide

theorem test_classes :
    [classOf 4 4 0 0, classOf 4 4 0 2, classOf 4 4 1 2, classOf 4 4 3 3] = [.corner, .border, .interior, .corner] := by
  decide

theorem test_shape_checks :
    [(4, 4), (2, 2), (3, 4), (4, 5), (0, 4), (6, 8)].map (fun s => ((checkGridSub s.1 s.2).isNone, (checkGridFull s.1 s.2).isNone)) =
      [(true, true), (true, false), (false, false), (false, false), (true, false), (true, true)] := by decide

/-! ## The arithmetic of the mean (V-FULL-6) -/

theorem test_mean_thirds :
    [mean 1 3, mean 7 3, mean 13 3, mean 427 3, mean 9 3] =
      [0x3FD5555555555555, 0x4002AAAAAAAAAAAB, 0x4011555555555555, 0x4061CAAAAAAAAAAB, 0x4008000000000000] := by
  decide +kernel

theorem test_mean_largest :
    [mean 12884901883 3, mean 12884901884 3, mean 12884901885 3, mean 311 4, mean 0 3] =
      [0x41EFFFFFFFCAAAAB, 0x41EFFFFFFFD55555, 0x41EFFFFFFFE00000, 0x4053700000000000, 0x0000000000000000] := by
  decide +kernel

/-! ## DECODE_SUBSAMPLED (V-SUB-1, V-SUB-2, V-SUB-5) -/

theorem test_sub_frameE :
    pixel (outOf (exec .decodeSubsampled (loaded frameE))) 1 0 =
      bits3 0x4022000000000000 0x4025000000000000 0x4028000000000000 := by decide +kernel

theorem test_sub_truncate :
    pixel (imageOf (execSub { vectorParams with subGMode := .truncate } frameA)) 1 1 =
      [some (.nat 3), some (.nat 102), some (.nat 41)] := by decide +kernel

/-! ## DECODE_FULL (V-FULL-2, frame A) -/

theorem test_full_interior_and_border :
    (pixel (outOf (exec .decodeFull (loaded frameA))) 2 2, pixel (outOf (exec .decodeFull (loaded frameA))) 1 0) =
      (bits3 0x4025000000000000 0x4053400000000000 0x4062300000000000,
        bits3 0x405B400000000000 0x404A2AAAAAAAAAAB 0x4040800000000000) := by decide +kernel

theorem test_full_corner_choice :
    ((imageOf (execFull vectorParams false frameA)).bind (·.element 0 3 1),
      (imageOf (execFull { vectorParams with cornerGAtR := .horizontal } false frameA)).bind (·.element 0 3 1)) =
      (some (.f64 0x404E800000000000), some (.f64 0x401C000000000000)) := by decide +kernel

/-! ## DECODE_FULL_DUP (V-DUP-1, V-DUP-3) -/

theorem test_dup_frameE :
    ((imageOf (execFull vectorParams true frameE)).bind (·.element 2 1 2),
      (imageOf (execFull vectorParams false frameE)).bind (·.element 2 1 2)) =
      (some (.f64 0x4020000000000000), some (.f64 0x4022000000000000)) := by decide +kernel

theorem test_dup_frameA :
    (imageOf (execFull { vectorParams with dupPair := .nwSe } true frameA)).bind (·.element 2 1 2) =
      some (.f64 0x4042800000000000) := by decide +kernel

/-! ## Host faults and errors (V-FAULT, section 3) -/

theorem test_load_faults :
    [loadFrame vectorParams 10 4 (List.replicate 40 0) State.reset, loadFrame vectorParams 2 2 [1, 2, 3] State.reset].map
      (·.faults) = [[.frameTooLarge 10 4], [.frameShape 2 2 3]] := by decide

/-- Whatever the free value picks, the one offending index is recorded. -/
theorem test_load_sample_range :
    (loadFrame vectorParams 2 2 [1, 2, 3, 256] State.reset).faults = [.sampleOutOfRange 3] := by
  have h : badSamples vectorParams [1, 2, 3, 256] = [3] := by decide
  have hb : State.reset.busy = false := by decide
  have hs : ¬ (vectorParams.maxNy < 2 ∨ vectorParams.maxNx < 2) := by decide
  simp only [loadFrame, hb, hs, h, pickedBadSample, List.length_singleton, Nat.mod_one]
  rfl

theorem test_reset_faults :
    (writeCmd 1 State.reset).faults = [.noFrame 1] ∧
      faultsOf (readOut 0 0 0 State.reset) = some [.outNotReady 0 0 0] ∧
      (busWrite vectorParams 0x1000 [0, 0] State.reset).faults = [.badRegisterAccess 0x1000] := by
  refine ⟨by decide, by decide, by decide⟩

theorem test_full_rejects_two_by_two :
    statusOf (exec .decodeFull (loaded frameTwo)) = some 0x13 ∧
      statusOf (exec .decodeSubsampled (loaded frameTwo)) = some 0x02 := by
  refine ⟨by decide +kernel, by decide +kernel⟩

/-- A command word placed at reset is run by the first step (all three commands complete). -/
theorem test_first_step :
    [1, 2, 6].map (fun w => statusOf (step (State.reset.withFetchWord 32 w))) = [some 2, some 2, some 2] := by
  decide +kernel

/-- P3's call as the macro of R80 spells it. -/
theorem test_call_expansion :
    callSubsampled frameTwo 0 =
      [.host (.loadFrame 2 2 [10, 20, 30, 40]), .host (.write 0 0x00000001), .wait 0, .readBack 1 1] := by decide

/-! ## Witnesses: for each statement with hypotheses, a state and operands that meet them -/

/-- A step that answers a next state, read off its outcome. -/
theorem next_of_status {o : Host.Outcome State Fault Refusal} (h : (statusOf o).isSome = true) : ∃ t, o = .next t := by
  cases o with
  | next t => exact ⟨t, rfl⟩
  | fault r => simp [statusOf] at h
  | refused r => simp [statusOf] at h

/-- A command that leaves an image has completed with it. -/
theorem completed_of_out {i : Instr} {s : State} (h : (outOf (exec i s)).isSome = true) :
    ∃ img, exec i s = .next (completed s img) := by
  rw [exec_eq_runDecoder] at h ⊢
  unfold runDecoder at h
  split at h
  · simp [outOf] at h
  split at h
  · simp [outOf] at h
  · rename_i f hf _ result hr
    cases result with
    | error e => simp [outOf, State.complete] at h
    | ok img => exact ⟨img, runDecoder_eq_next.mpr ⟨f, .ok img, hf, hr, rfl⟩⟩

/-- The reset state with a trace to run. -/
def withPending (s : State) (es : List Event) : State := { s with pending := es }

/-- A state in BUSY with a frame of zeros and DECODE_FULL in CMD. -/
def busyState : State := State.reset.withFetchWord 32 2

/-- The frame of zeros is in range and in capacity whatever the parameters. -/
theorem placedFrame_wf : placedFrame.wf Config.params = true := by
  obtain ⟨-, ⟨hy, -, -⟩, ⟨hx, -, -⟩⟩ := Config.params_legal
  rw [Frame.wf_iff]
  refine ⟨hy, hx, rfl, ?_⟩
  intro v hv
  rw [List.eq_of_mem_replicate hv]
  positivity

theorem busyState_inv : busyState.Inv Config.params := by
  refine ⟨by decide, ?_, ⟨rfl, rfl⟩, fun _ => rfl, by decide⟩
  rw [Memory.wf_iff]
  refine ⟨fun f hf => ?_, fun img hi => by cases hi⟩
  cases hf
  exact placedFrame_wf

/-- A state in DONE with the SUB image of frame E's shape over zeros. -/
def doneState : State :=
  { (loaded placedFrame).completeImage { kind := .sub, rows := 1, cols := 1, elems := List.replicate 3 (.f64 0) } with
    pending := [] }

theorem witness_DecodeInvertsEncodeExactly : decode 6 = .ok .decodeFullDup := by rfl

/-- 0 is the least reserved word, 7 the one above the last valid word. -/
theorem witness_ReservedWordEndsInInvalidCommand :
    let idle := withPending (loaded frameE) [.host (.write 0 7), .wait 0]
    let busy := State.reset.withFetchWord 32 0
    ((7 : Word) ≠ 1 ∧ (7 : Word) ≠ 2 ∧ (7 : Word) ≠ 6) ∧ ((0 : Word) ≠ 1 ∧ (0 : Word) ≠ 2 ∧ (0 : Word) ≠ 6) ∧
      (idle.pending = .host (.write 0 7) :: [.wait 0] ∧ idle.busy = false ∧ idle.mem.frame.isSome = true) ∧
      (busy.busy = true ∧ busy.cmd = 0 ∧ busy.pending = []) ∧
      (withPending busy [.engine]).pending = .engine :: [] ∧ (withPending busy [.wait 0]).pending = .wait 0 :: [] := by
  decide

theorem witness_ResetEventRestoresAllButFaults : (withPending busyState [.reset]).pending = .reset :: [] := by rfl

theorem witness_StepRunsTheDecodedCommand :
    (busyState.busy = true ∧ decode busyState.cmd = .ok .decodeFull) ∧ busyState.pending = [] ∧
      (withPending busyState [.engine]).pending = .engine :: [] ∧
      (withPending busyState [.wait 0]).pending = .wait 0 :: [] := ⟨⟨by decide, by rfl⟩, rfl, rfl, rfl⟩

theorem witness_EngineIdlesUnlessBusy :
    State.reset.busy = false ∧ State.reset.pending = [] ∧ (withPending State.reset [.engine]).busy = false := by decide

theorem witness_CommandFrame (i : Instr) : ∃ t, exec i (loaded frameE) = .next t := by
  cases i <;> exact next_of_status (by decide +kernel)

theorem witness_ResultDependsOnFrameOnly :
    busyState.mem.frame = doneState.mem.frame ∧ ∃ t, exec .decodeFull busyState = .next t :=
  ⟨by decide, next_of_status (by decide +kernel)⟩

theorem witness_EveryCommandCompletes : (loaded frameE).mem.frame = some frameE ∧ frameE.Complete := by decide

theorem witness_CommandWithoutFrameStops : State.reset.mem.frame = none := by rfl

theorem witness_RoleSitesAreParityProducts :
    (4 % 2 = 0 ∧ 4 % 2 = 0) ∧ (0 < 4 ∧ 3 < 4) ∧ [role 0 0, role 0 3, role 3 0, role 3 3] = [.g1, .r, .b, .g2] := by decide

theorem witness_SubsampledGathersTiles :
    ((loaded frameTwo).mem.frame = some frameTwo ∧ frameTwo.Complete ∧ SubShape frameTwo ∧ 0 < frameTwo.ny / 2) ∧
      (frameE.Complete ∧ SubShape frameE ∧ 1 < frameE.nx / 2) ∧
      ¬ SubShape { ny := 3, nx := 4, samples := List.replicate 12 0 } := by decide

theorem witness_SubsampledGreenIsTheExactMean :
    4294967295 < 2 ^ 32 ∧ vectorParams.subGMode = .exact ∧
      ({ vectorParams with subGMode := .truncate } : Params).subGMode = .truncate := by decide

theorem witness_SubsampledEmptyFrameCompletesEmpty :
    let f : Frame := { ny := 0, nx := 6, samples := [] }
    (loaded f).mem.frame = some f ∧ f.Complete ∧ SubShape f ∧ (f.ny = 0 ∨ f.nx = 0) := by decide

/-- Frame E with the last sample, outside tile (0, 0), changed. -/
def frameE' : Frame := { frameE with samples := frameE.samples.set 15 99 }

theorem witness_SubsampledTileIsLocal :
    (∃ img, exec .decodeSubsampled (loaded frameE) = .next (completed (loaded frameE) img)) ∧
      (∃ img, exec .decodeSubsampled (loaded frameE') = .next (completed (loaded frameE') img)) ∧
      frameE ≠ frameE' ∧ frameE.ny = frameE'.ny ∧ frameE.nx = frameE'.nx ∧ 0 < frameE.ny / 2 ∧ 0 < frameE.nx / 2 ∧
      frameE.sample (2 * 0 : Nat) (2 * 0 : Nat) = frameE'.sample (2 * 0 : Nat) (2 * 0 : Nat) ∧
      frameE.sample (2 * 0 : Nat) (2 * 0 + 1 : Nat) = frameE'.sample (2 * 0 : Nat) (2 * 0 + 1 : Nat) ∧
      frameE.sample (2 * 0 + 1 : Nat) (2 * 0 : Nat) = frameE'.sample (2 * 0 + 1 : Nat) (2 * 0 : Nat) ∧
      frameE.sample (2 * 0 + 1 : Nat) (2 * 0 + 1 : Nat) = frameE'.sample (2 * 0 + 1 : Nat) (2 * 0 + 1 : Nat) :=
  ⟨completed_of_out (by decide +kernel), completed_of_out (by decide +kernel), by decide⟩

theorem witness_FullDecodeIsInterp :
    ((loaded frameE).mem.frame = some frameE ∧ frameE.Complete ∧ FullShape frameE) ∧
      (frameTwo.Complete ∧ ¬ FullShape frameTwo) ∧ (3 < frameE.ny ∧ 3 < frameE.nx) := by decide

/-- At the least shape and at its last pixel, and the two ways a shape fails. -/
theorem witness_FullDupDecodeIsInterp :
    ((loaded frameA).mem.frame = some frameA ∧ frameA.Complete ∧ FullShape frameA ∧ 3 < frameA.ny ∧ 3 < frameA.nx) ∧
      ¬ FullShape frameTwo ∧ ¬ FullShape { ny := 5, nx := 4, samples := List.replicate 20 0 } := by decide

theorem witness_NativeChannelIsTheSample :
    (loaded frameA).mem.frame = some frameA ∧ frameA.Complete ∧ FullShape frameA ∧ 0 < frameA.ny ∧ 3 < frameA.nx := by
  decide

/-- The frame hypotheses are those of witness_NativeChannelIsTheSample. -/
theorem witness_CornersCopyOneNeighbour :
    (Config.params.cornerGAtR = .vertical ∨ Config.params.cornerGAtR = .horizontal) ∧
      (Config.params.cornerGAtB = .vertical ∨ Config.params.cornerGAtB = .horizontal) := by
  constructor
  · cases Config.params.cornerGAtR <;> simp
  · cases Config.params.cornerGAtB <;> simp

theorem witness_InteriorMeansByRole :
    (1 ≤ 2 ∧ 2 + 2 ≤ frameE.ny ∧ 1 ≤ 1 ∧ 1 + 2 ≤ frameE.nx) ∧
      [role 2 2, role 1 1, role 2 1, role 1 2] = [.g1, .g2, .r, .b] := by decide

theorem witness_BorderMeansOfInBoundsTerms :
    0 < frameE.ny ∧ 1 < frameE.nx ∧ classOf frameE.ny frameE.nx 0 1 = .border ∧ Channel.g ≠ native (role 0 1) := by decide

theorem witness_BorderTermTable :
    (4 % 2 = 0 ∧ 4 ≤ 4) ∧ (0 < 2 ∧ 2 < 4 - 1 ∧ 2 % 2 = 0) ∧ (0 < 1 ∧ 1 < 4 - 1 ∧ 1 % 2 = 1) := by decide

theorem witness_NoEmptyAverageAndNoReadOutside :
    (4 % 2 = 0 ∧ 4 ≤ 4 ∧ 3 < 4) ∧
      (classOf 4 4 0 1 = .border ∧ Channel.g ≠ native (role 0 1)) ∧
      (classOf 4 4 2 1 = .interior ∧ Channel.b ≠ native (role 2 1)) ∧
      (classOf 4 4 3 3 = .corner ∧ Channel.r ≠ native (role 3 3)) := by decide

theorem witness_DupChangesOnlyTheDupCase :
    (∃ (r c : Nat) (k : Channel), r < frameE.ny ∧ c < frameE.nx ∧ classOf frameE.ny frameE.nx r c = .interior ∧
      (role r c, k) = dupCase Config.params.dupTarget) ∧
      (0 < frameE.ny ∧ 0 < frameE.nx ∧ classOf frameE.ny frameE.nx 0 0 ≠ .interior) := by
  refine ⟨?_, by decide⟩
  cases Config.params.dupTarget
  · exact ⟨2, 1, .b, by decide⟩
  · exact ⟨1, 2, .r, by decide⟩

theorem witness_ConstantFrameStaysConstant :
    (loaded placedFrame).mem.frame = some placedFrame ∧ placedFrame.Complete ∧ FullShape placedFrame ∧
      ∀ x ∈ placedFrame.samples, x = 0 := by decide

/-- The second part is a tie: 2^53 + 1 lies half way between 2^53 and 2^53 + 2. -/
theorem witness_RoundingIsNearestTiesToEven :
    (0 < 3 ∧ 7 < 3 * 2 ^ 1023) ∧ binary64Finite 0x4000000000000000 = true ∧
      (9007199254740993 < 1 * 2 ^ 1023 ∧ binary64Finite 0x4340000000000001 = true ∧
        distance 0x4340000000000001 9007199254740993 1 = distance (rnd64 9007199254740993 1) 9007199254740993 1 ∧
        (0x4340000000000001 : Binary64) ≠ rnd64 9007199254740993 1) := by decide +kernel

theorem witness_NaturalsBelow53BitsAreExact : 9007199254740991 < 2 ^ 53 := by decide

theorem witness_MeansAreExactOrUniquelyNearest :
    (17179869183 < 2 ^ 34 ∧ 17179869183 % 3 = 0) ∧ (7 < 2 ^ 34 ∧ 7 % 3 ≠ 0) ∧
      (binary64Finite 0x4000000000000000 = true ∧ (0x4000000000000000 : Binary64) ≠ mean 7 3) ∧
      (surviving 4 4 0 1 .g).length = 3 := by decide +kernel

theorem witness_FullElementsAreInRange :
    placedFrame.wf Config.params = true ∧
      (∃ img, exec (fullCommand false) (loaded placedFrame) = .next (completed (loaded placedFrame) img)) ∧
      ∃ img, exec (fullCommand true) (loaded placedFrame) = .next (completed (loaded placedFrame) img) :=
  ⟨placedFrame_wf, completed_of_out (by decide +kernel), completed_of_out (by decide +kernel)⟩

/-- The five clauses, at their boundaries: the last frame accepted and the first refused. -/
theorem witness_LoadFrameInstallsOrFaults :
    let p := Config.params
    (withPending busyState [.host (.loadFrame 0 0 [])]).busy = true ∧
      (State.reset.busy = false ∧ p.maxNy < p.maxNy + 1) ∧
      (2 ≤ p.maxNy ∧ 2 ≤ p.maxNx ∧ [1, 2, 3].length ≠ 2 * 2) ∧
      (1 ≤ p.maxNy ∧ 1 ≤ p.maxNx ∧ [2 ^ p.sampleBits].length = 1 * 1 ∧ ∃ x ∈ [2 ^ p.sampleBits], 2 ^ p.sampleBits ≤ x) ∧
      ([2 ^ p.sampleBits - 1].length = 1 * 1 ∧ ∀ x ∈ [2 ^ p.sampleBits - 1], x < 2 ^ p.sampleBits) := by
  obtain ⟨-, ⟨hy, -, -⟩, ⟨hx, -, -⟩⟩ := Config.params_legal
  have hpos : 0 < 2 ^ Config.params.sampleBits := by positivity
  refine ⟨by decide, ⟨by decide, by omega⟩, ⟨by omega, by omega, by decide⟩, ⟨by omega, by omega, rfl, by simp⟩, rfl, ?_⟩
  simp

theorem witness_WriteCmdStartsOrFaults :
    (withPending busyState [.host (.write 0 2)]).busy = true ∧
      ((withPending State.reset [.host (.write 0 2)]).busy = false ∧ State.reset.mem.frame = none) ∧
      ((withPending (loaded frameE) [.host (.write 0 2)]).busy = false ∧ (loaded frameE).mem.frame ≠ none) := by decide

theorem witness_OtherWritesOnlyFault :
    (withPending State.reset [.host (.write 3 8)]).pending = .host (.write 3 8) :: [] ∧ 3 ≠ 0 ∧ 3 < 4 ∧
      (withPending State.reset [.host (.write 4 8)]).pending = .host (.write 4 8) :: [] ∧ 4 ≠ 0 ∧ ¬ 4 < 4 := by decide

theorem witness_ReadReturnsTheRegister :
    [0, 1, 2, 3, 4].all
      (fun n => decide ((withPending busyState [.host (.read n)]).pending = .host (.read n) :: [])) = true := by decide

theorem witness_ReadOutReturnsTheElement :
    (statusState State.reset.status ≠ .done) ∧
      (statusState doneState.status = .done ∧ doneState.mem.image.isSome = true ∧
        ∀ img, doneState.mem.image = some img → img.elems.length = img.rows * img.cols * 3 ∧
          (img.rows ≤ 1 ∧ ¬ img.rows ≤ 0) ∧ (img.cols ≤ 1 ∧ ¬ img.cols ≤ 0)) := by
  refine ⟨by decide, by decide, by decide, ?_⟩
  intro img h
  cases h
  decide

theorem witness_BusCarriesWholeAlignedWords :
    (wordToBytes .little 0x00000002 = [2, 0, 0, 0] ∧ wordToBytes .big 0x00000002 = [0, 0, 0, 2]) ∧
      (State.reset.readReg 3).isSome = true ∧ State.reset.readReg 4 = none ∧
      ([0, 0] : List Byte).length ≠ 4 ∧ 0x0FFC < vectorParams.regBase ∧ (0x1002 - vectorParams.regBase) % 4 ≠ 0 := by
  decide

/-- The clauses about step: the registers at both ends, the first address past them, and a misaligned one. -/
theorem witness_BusCarriesWholeAlignedWords_step :
    let base := Config.params.regBase
    (withPending State.reset [.host (.busWrite (base + 4 * 0) (wordToBytes Config.params.hostByteOrder 2))]).pending =
        .host (.busWrite (base + 4 * 0) (wordToBytes Config.params.hostByteOrder 2)) :: [] ∧
      State.reset.readReg 3 = some 0 ∧ State.reset.readReg 4 = none ∧
      (base + 4 * 3 + 1 - base) % 4 ≠ 0 ∧ ([] : List Byte).length ≠ 4 ∧ 3 ≠ 4 :=
  ⟨rfl, rfl, rfl, by omega, by decide, by decide⟩

theorem witness_WaitPollsUntilNotBusy :
    (withPending State.reset [.wait 2]).busy = false ∧
      ((withPending busyState [.wait 1]).busy = true ∧ 0 < 1) ∧ (withPending busyState [.wait 0]).busy = true := by decide

theorem witness_ReadsChangeNoRegisterOrBuffer :
    (∃ t, step (withPending doneState [.host (.read 1)]) = .next t) ∧
      (∃ t, step (withPending doneState [.host (.readOut 0 0 2)]) = .next t) ∧
      ∃ t, step (withPending doneState [.host (.busRead Config.params.regBase 4)]) = .next t :=
  ⟨⟨_, rfl⟩, ⟨_, rfl⟩, ⟨_, rfl⟩⟩

/-- A step that is neither a load nor a reset. -/
theorem witness_ShapeAndFrameChangeOnlyOnLoadOrReset :
    let s := withPending (loaded frameE) [.host (.write 0 6)]
    (∃ t, step s = .next t) ∧ s.pending = .host (.write 0 6) :: [] := ⟨⟨_, rfl⟩, rfl⟩

/-- The fault record grows here by one entry. -/
theorem witness_FaultRecordOnlyGrows :
    ∃ t, step (withPending State.reset [.host (.write 4 6)]) = .next t ∧ t.faults = [.noSuchRegister 4] := ⟨_, rfl, rfl⟩

theorem witness_CmdChangesOnlyOnWriteOrReset :
    ∃ t, step (withPending (loaded frameE) [.host (.write 0 6)]) = .next t ∧ t.cmd ≠ (loaded frameE).cmd :=
  ⟨_, rfl, by decide⟩

theorem witness_ResultStandsUntilTheNextCommand :
    (∃ t, step (withPending doneState [.engine]) = .next t) ∧ (withPending doneState [.engine]).busy = false ∧
      (withPending doneState [.engine]).pending = .engine :: [] := ⟨⟨_, rfl⟩, by decide, rfl⟩

theorem witness_BusyBlocksEveryHostAction :
    (withPending busyState [.host (.loadFrame 0 0 [])]).busy = true ∧
      ∃ t, step (withPending busyState [.host (.loadFrame 0 0 [])]) = .next t := ⟨by decide, ⟨_, rfl⟩⟩

theorem witness_RunWithAFaultNeverSucceeds :
    (writeReg 1 0 State.reset).faults ≠ [] ∧
      ∃ t, Host.Core.run Sys2Proof.core 3 (writeReg 1 0 State.reset) = .next t := ⟨by decide, ⟨_, rfl⟩⟩

theorem witness_StepKeepsTheInvariant : busyState.Inv Config.params ∧ ∃ t, step busyState = .next t :=
  ⟨busyState_inv, next_of_status (by decide +kernel)⟩

theorem witness_StepNeverStopsUnderTheInvariant : ∃ s : State, s.Inv Config.params := ⟨busyState, busyState_inv⟩

/-- With one turn left, the least there can be. -/
theorem witness_BusyEndsWithinTheTurnsLeft :
    busyState.Inv Config.params ∧ busyState.busy = true ∧ turnsLeft busyState.pending = 1 :=
  ⟨busyState_inv, by decide, rfl⟩

end Sys2Proof.Tests
end

section
/-!
PROOFS. The range of what the decoders compute (10_state R34, R35): the mean of one to four samples of a frame is finite,
at most the largest sample, and zero or at least 1/4.
-/
namespace Sys2Proof.Machine

/-! ## Rounding a quotient below 2^32 (42_neighbor_averaging_pipeline R121, R122) -/

theorem lt_mul_two_pow_1023 {num den : Nat} (h : num < den * 2 ^ 32) : num < den * 2 ^ 1023 := by
  have hpow : (2 : Nat) ^ 32 ≤ 2 ^ 1023 := pow_le_pow_right₀ one_le_two (by decide)
  exact h.trans_le (Nat.mul_le_mul_left den hpow)

/-- The last significand bit of a quotient below 2^32 is worth at most 2^1072 units, which is 1/4. -/
theorem rnd64Scale_le {num den : Nat} (hd : 0 < den) (hn : num < den * 2 ^ 32) : rnd64Scale num den ≤ 1072 := by
  obtain ⟨-, -, -, -, h0 | ⟨-, hle⟩⟩ := rnd64_spec hd (lt_mul_two_pow_1023 hn)
  · omega
  have hlt : den * 2 ^ (52 + rnd64Scale num den) < den * 2 ^ (32 + unitExponent) := by
    calc den * 2 ^ (52 + rnd64Scale num den) = 2 ^ 52 * (den * 2 ^ rnd64Scale num den) := by rw [pow_add]; ring
      _ ≤ num * 2 ^ unitExponent := hle
      _ < den * 2 ^ 32 * 2 ^ unitExponent := Nat.mul_lt_mul_of_pos_right hn (by positivity)
      _ = den * 2 ^ (32 + unitExponent) := by rw [pow_add]; ring
  have hexp := (Nat.pow_lt_pow_iff_right (by omega)).mp (Nat.lt_of_mul_lt_mul_left hlt)
  unfold unitExponent at hexp
  omega

/-- Rounding keeps below a multiple of 2^j units (j at least the scale) that the quotient keeps below. -/
theorem rnd64_units_le {num den j k : Nat} (hd : 0 < den) (hn : num < den * 2 ^ 32) (hj : rnd64Scale num den ≤ j)
    (h : num * 2 ^ unitExponent ≤ k * 2 ^ j * den) : binary64Units (rnd64 num den) ≤ k * 2 ^ j := by
  obtain ⟨d, rfl⟩ := Nat.exists_eq_add_of_le hj
  rw [(rnd64_units hd (lt_mul_two_pow_1023 hn)).2, Nat.add_comm, pow_add, ← Nat.mul_assoc]
  refine Nat.mul_le_mul_right _ (roundEven_le (by positivity) (h.trans_eq ?_))
  rw [pow_add]
  ring

/-- Rounding keeps above a multiple of 2^j units (j at least the scale) that the quotient keeps above. -/
theorem le_rnd64_units {num den j k : Nat} (hd : 0 < den) (hn : num < den * 2 ^ 32) (hj : rnd64Scale num den ≤ j)
    (h : k * 2 ^ j * den ≤ num * 2 ^ unitExponent) : k * 2 ^ j ≤ binary64Units (rnd64 num den) := by
  obtain ⟨d, rfl⟩ := Nat.exists_eq_add_of_le hj
  rw [(rnd64_units hd (lt_mul_two_pow_1023 hn)).2, Nat.add_comm, pow_add, ← Nat.mul_assoc]
  refine Nat.mul_le_mul_right _ (le_roundEven (by positivity) (Eq.trans_le ?_ h))
  rw [pow_add]
  ring

/-- What R35 says of an element: finite and non-negative, at most 2^SAMPLE_BITS − 1, and zero or at least 1/4. -/
structure InSampleRange (p : Params) (b : Binary64) : Prop where
  finite : binary64Finite b = true
  le_max : binary64Units b ≤ (2 ^ p.sampleBits - 1) * 2 ^ unitExponent
  not_small : binary64Units b = 0 ∨ 2 ^ 1072 ≤ binary64Units b

/-- A quotient by at most four that is no larger than a sample rounds into the range of the elements. -/
theorem rnd64_inSampleRange {p : Params} (hp : p.Legal) {num den : Nat} (hd : 0 < den) (hd4 : den ≤ 4)
    (hn : num ≤ (2 ^ p.sampleBits - 1) * den) : InSampleRange p (rnd64 num den) := by
  have hbits : 2 ^ p.sampleBits ≤ 2 ^ 32 := Nat.pow_le_pow_right two_pos hp.1.2
  have hpos : 0 < 2 ^ p.sampleBits := by positivity
  have hn32 : num < den * 2 ^ 32 := by
    calc num ≤ (2 ^ p.sampleBits - 1) * den := hn
      _ < 2 ^ 32 * den := Nat.mul_lt_mul_of_pos_right (by omega) hd
      _ = den * 2 ^ 32 := Nat.mul_comm _ _
  have hscale := rnd64Scale_le hd hn32
  have hunit : unitExponent = 2 + 1072 := by unfold unitExponent; rfl
  refine ⟨(rnd64_units hd (lt_mul_two_pow_1023 hn32)).1, rnd64_units_le hd hn32 (by omega) ?_, ?_⟩
  · calc num * 2 ^ unitExponent ≤ (2 ^ p.sampleBits - 1) * den * 2 ^ unitExponent := Nat.mul_le_mul_right _ hn
      _ = (2 ^ p.sampleBits - 1) * 2 ^ unitExponent * den := by ring
  · rcases Nat.eq_zero_or_pos num with h0 | h0
    · left
      have hle := rnd64_units_le (k := 0) hd hn32 hscale (by rw [h0, Nat.zero_mul]; exact Nat.zero_le _)
      rwa [Nat.zero_mul, Nat.le_zero] at hle
    · right
      have hquarter : 1 * 2 ^ 1072 * den ≤ num * 2 ^ unitExponent := by
        rw [hunit, pow_add, ← Nat.mul_assoc, Nat.one_mul, Nat.mul_comm]
        exact Nat.mul_le_mul_right _ (by omega)
      exact (Nat.one_mul _).ge.trans (le_rnd64_units hd hn32 hscale hquarter)

end Sys2Proof.Machine
end

section
/-!
PROOFS. Every element a decoder computes is the mean of one to four samples of the frame (41_subsampling_decoder,
42_neighbor_averaging_pipeline), so the images keep the canonical form and the range of R34 and R35.
-/
namespace Sys2Proof.Machine

/-! ## Means of samples -/

/-- The mean of one to four of the frame's samples; of one it is the sample itself (R121). -/
def Frame.IsMean (f : Frame) (b : Binary64) : Prop :=
  ∃ vs : List Nat, vs ≠ [] ∧ vs.length ≤ 4 ∧ (∀ v ∈ vs, v ∈ f.samples) ∧ b = mean vs.sum vs.length

theorem Frame.isMean_f64 {f : Frame} {r c : Int} {v : Nat} (h : f.sample r c = some v) : f.IsMean (f64 v) :=
  ⟨[v], by simp, by simp, by simpa using Frame.sample_mem h, rfl⟩

theorem Frame.isMean_of_meanOver {f : Frame} {r c : Nat} {os : List Offset} {b : Binary64}
    (hne : os ≠ []) (hlen : os.length ≤ 4) (h : meanOver f r c os = some b) : f.IsMean b := by
  obtain ⟨vs, hvs, hb⟩ := meanOver_eq_some.mp h
  have hl : os.length = vs.length := by simpa using congrArg List.length hvs
  refine ⟨vs, List.ne_nil_of_length_pos (hl ▸ List.length_pos_of_ne_nil hne), hl ▸ hlen, fun v hv => ?_, hb⟩
  obtain ⟨o, -, ho⟩ := List.mem_map.mp (hvs ▸ List.mem_map_of_mem (f := some) hv)
  exact Frame.sample_mem ho

/-- A mean of samples lies in the range of the elements, since no sample exceeds 2^SAMPLE_BITS − 1 (R35). -/
theorem Frame.IsMean.inSampleRange {p : Params} (hp : p.Legal) {f : Frame} (hf : f.wf p = true) {b : Binary64}
    (h : f.IsMean b) : InSampleRange p b := by
  obtain ⟨vs, hne, hlen, hmem, rfl⟩ := h
  obtain ⟨-, -, -, hrange⟩ := Frame.wf_iff.mp hf
  refine rnd64_inSampleRange hp (List.length_pos_of_ne_nil hne) hlen ?_
  have hsum := List.sum_le_card_nsmul vs (2 ^ p.sampleBits - 1) fun v hv => Nat.le_sub_one_of_lt (hrange v (hmem v hv))
  rwa [smul_eq_mul, Nat.mul_comm] at hsum

/-! ## The neighbours a pixel keeps (R112, R113) -/

/-- A channel a role does not sample is interpolated from a whole pair, or from the whole diagonals (R112). -/
theorem template_contains {ro : Role} {k : Channel} (hk : k ≠ native ro) :
    horizontalPair ⊆ template ro k ∨ verticalPair ⊆ template ro k ∨ diagonals ⊆ template ro k := by
  revert hk
  cases ro <;> cases k <;> decide

theorem template_length_le (ro : Role) (k : Channel) : (template ro k).length ≤ 4 := by
  cases ro <;> cases k <;> decide

theorem surviving_length_le (ny nx r c : Nat) (k : Channel) : (surviving ny nx r c k).length ≤ 4 :=
  (List.length_filter_le _ _).trans (template_length_le _ _)

/-- In a frame of two rows and columns or more, some neighbour of every template lies inside (R119). -/
theorem surviving_ne_nil {ny nx r c : Nat} {k : Channel} (hny : 2 ≤ ny) (hnx : 2 ≤ nx) (hr : r < ny) (hc : c < nx)
    (hk : k ≠ native (role r c)) : surviving ny nx r c k ≠ [] := by
  obtain ⟨dr, hdr, hrow⟩ : ∃ dr : Int, (dr = -1 ∨ dr = 1) ∧ 0 ≤ r + dr ∧ r + dr < ny := by
    rcases Nat.eq_zero_or_pos r with h | h
    · exact ⟨1, by omega⟩
    · exact ⟨-1, by omega⟩
  obtain ⟨dc, hdc, hcol⟩ : ∃ dc : Int, (dc = -1 ∨ dc = 1) ∧ 0 ≤ c + dc ∧ c + dc < nx := by
    rcases Nat.eq_zero_or_pos c with h | h
    · exact ⟨1, by omega⟩
    · exact ⟨-1, by omega⟩
  rcases template_contains hk with h | h | h
  · refine List.ne_nil_of_mem (mem_surviving.mpr ⟨h (a := ⟨0, dc⟩) ?_, inBounds_iff.mpr ⟨by simpa using hr, hcol⟩⟩)
    rcases hdc with rfl | rfl <;> decide
  · refine List.ne_nil_of_mem (mem_surviving.mpr ⟨h (a := ⟨dr, 0⟩) ?_, inBounds_iff.mpr ⟨hrow, by simpa using hc⟩⟩)
    rcases hdr with rfl | rfl <;> decide
  · refine List.ne_nil_of_mem (mem_surviving.mpr ⟨h (a := ⟨dr, dc⟩) ?_, inBounds_iff.mpr ⟨hrow, hcol⟩⟩)
    rcases hdr with rfl | rfl <;> rcases hdc with rfl | rfl <;> decide

/-! ## The elements of the two decoders -/

theorem Frame.isMean_of_dupDiagonal {p : Params} {f : Frame} {r c : Nat} {k : Channel} {b : Binary64}
    (h : dupDiagonal p f r c k = some b) : f.IsMean b := by
  unfold dupDiagonal at h
  split at h
  next nw ne sw se hnw hne hsw hse =>
    have hnw := Frame.sample_mem hnw
    have hne := Frame.sample_mem hne
    have hsw := Frame.sample_mem hsw
    have hse := Frame.sample_mem hse
    split at h <;> cases h
    · refine ⟨[(pickPair p.dupPair nw ne sw se).1, (pickPair p.dupPair nw ne sw se).2,
        (pickPair p.dupPair nw ne sw se).1, (pickPair p.dupPair nw ne sw se).2], by simp, by simp, ?_, ?_⟩
      · cases p.dupPair <;> simp [pickPair, *]
      · simp [dupMean, Nat.add_assoc]
    · exact ⟨[nw, ne, sw, se], by simp, by simp, by simp [*], by simp [Nat.add_assoc]⟩
  · cases h

/-- Interp answers a mean of samples of the frame (R117). -/
theorem Frame.isMean_of_interp {p : Params} {f : Frame} {r c : Nat} {k : Channel} {dup : Bool} {b : Binary64}
    (hny : 2 ≤ f.ny) (hnx : 2 ≤ f.nx) (hr : r < f.ny) (hc : c < f.nx) (h : interp p f r c k dup = some b) :
    f.IsMean b := by
  unfold interp at h
  split at h
  next =>
    obtain ⟨v, hv, rfl⟩ := Option.map_eq_some_iff.mp h
    exact isMean_f64 hv
  next hk =>
    have hsurv : meanOver f r c (surviving f.ny f.nx r c k) = some b → f.IsMean b :=
      isMean_of_meanOver (surviving_ne_nil hny hnx hr hc hk) (surviving_length_le _ _ _ _ _)
    split at h
    next =>
      obtain ⟨v, hv, rfl⟩ := Option.map_eq_some_iff.mp h
      exact isMean_f64 (cornerCopy_eq_some hv)
    next => exact hsurv h
    next =>
      split at h
      · exact isMean_of_dupDiagonal h
      · exact hsurv h

theorem Frame.isMean_of_fullElement {p : Params} {f : Frame} {r c : Nat} {k : Channel} {dup : Bool} {e : Element}
    (hny : 2 ≤ f.ny) (hnx : 2 ≤ f.nx) (hr : r < f.ny) (hc : c < f.nx) (h : fullElement p f dup r c k = some e) :
    ∃ b, e = .f64 b ∧ f.IsMean b := by
  obtain ⟨b, hb, rfl⟩ := Option.map_eq_some_iff.mp h
  exact ⟨b, rfl, isMean_of_interp hny hnx hr hc hb⟩

/-- Under SUB_G_MODE = EXACT an element of the SUB image is a sample or the mean of two (R101, R102). -/
theorem Frame.isMean_of_subElement {p : Params} (hp : p.subGMode = .exact) {f : Frame} {i j : Nat} {k : Channel}
    {e : Element} (h : subElement p f i j k = some e) : ∃ b, e = .f64 b ∧ f.IsMean b := by
  cases k with
  | r =>
    obtain ⟨v, hv, rfl⟩ := Option.map_eq_some_iff.mp h
    exact ⟨f64 v, by simp [subValue, hp], isMean_f64 hv⟩
  | g =>
    simp only [subElement] at h
    split at h
    next g1 g2 h1 h2 =>
      cases h
      have hmem : ∀ v ∈ [g1, g2], v ∈ f.samples := by simp [Frame.sample_mem h1, Frame.sample_mem h2]
      exact ⟨rnd64 (g1 + g2) 2, by simp [subGreen, hp], [g1, g2], by simp, by simp, hmem, by simp [mean]⟩
    next => cases h
  | b =>
    obtain ⟨v, hv, rfl⟩ := Option.map_eq_some_iff.mp h
    exact ⟨f64 v, by simp [subValue, hp], isMean_f64 hv⟩

/-! ## The images of the two decoders -/

/-- Every element of a built image was computed for a position inside it (R53). -/
theorem buildImage_mem {kind : ImageKind} {rows cols : Nat} {elem : Nat → Nat → Channel → Option Element}
    {img : Image} (h : buildImage kind rows cols elem = some img) {e : Element} (he : e ∈ img.elems) :
    ∃ r c k, r < rows ∧ c < cols ∧ elem r c k = some e := by
  obtain ⟨es, hes, rfl⟩ := Option.map_eq_some_iff.mp h
  have hmem := List.mem_map_of_mem (f := some) he
  rw [← allSome_eq_some.mp hes] at hmem
  obtain ⟨i, hi, heq⟩ := List.mem_map.mp hmem
  have hi3 : i / 3 < rows * cols := by have := List.mem_range.mp hi; omega
  have hcols : 0 < cols := Nat.pos_of_ne_zero fun h0 => by simp [h0] at hi3
  exact ⟨_, _, _, (Nat.div_lt_iff_lt_mul hcols).mpr hi3, Nat.mod_lt _ hcols, heq⟩

theorem checkGridFull_eq_none {ny nx : Nat} :
    checkGridFull ny nx = none ↔ (ny % 2 = 0 ∧ nx % 2 = 0) ∧ 4 ≤ ny ∧ 4 ≤ nx := by
  unfold checkGridFull
  split_ifs <;> simp only [false_iff, true_iff] <;> omega

/-- A full decode that leaves an image: the grid was accepted, and the image is built from Interp (R130). -/
theorem execFull_eq_ok {p : Params} {dup : Bool} {f : Frame} {img : Image} :
    execFull p dup f = some (.ok img) ↔
      checkGridFull f.ny f.nx = none ∧ buildImage .full f.ny f.nx (fullElement p f dup) = some img := by
  unfold execFull
  cases checkGridFull f.ny f.nx <;> simp

/-- A subsampled decode that leaves an image: the grid was accepted, and the image is built from the tiles (R100). -/
theorem execSub_eq_ok {p : Params} {f : Frame} {img : Image} :
    execSub p f = some (.ok img) ↔
      checkGridSub f.ny f.nx = none ∧ buildImage .sub (f.ny / 2) (f.nx / 2) (subElement p f) = some img := by
  unfold execSub
  cases checkGridSub f.ny f.nx <;> simp

/-- Every element of the image a command leaves is a binary64 mean of samples. -/
theorem decoderOf_isMean {i : Instr} {f : Frame} {img : Image} (h : decoderOf i f = some (.ok img)) {e : Element}
    (he : e ∈ img.elems) : ∃ b, e = .f64 b ∧ f.IsMean b := by
  have full {dup : Bool} (h : execFull Config.params dup f = some (.ok img)) : ∃ b, e = .f64 b ∧ f.IsMean b := by
    obtain ⟨hgrid, hbuild⟩ := execFull_eq_ok.mp h
    obtain ⟨-, hny, hnx⟩ := checkGridFull_eq_none.mp hgrid
    obtain ⟨r, c, k, hr, hc, hel⟩ := buildImage_mem hbuild he
    exact Frame.isMean_of_fullElement (by omega) (by omega) hr hc hel
  cases i with
  | decodeSubsampled =>
    obtain ⟨-, hbuild⟩ := execSub_eq_ok.mp h
    obtain ⟨r, c, k, -, -, hel⟩ := buildImage_mem hbuild he
    exact Frame.isMean_of_subElement rfl hel
  | decodeFull => exact full h
  | decodeFullDup => exact full h

/-- The image a command leaves lists exactly the elements of its shape. -/
theorem decoderOf_length {i : Instr} {f : Frame} {img : Image} (h : decoderOf i f = some (.ok img)) :
    img.elems.length = img.rows * img.cols * 3 := by
  have built {kind rows cols elem} (h : buildImage kind rows cols elem = some img) :
      img.elems.length = img.rows * img.cols * 3 := by
    obtain ⟨-, rfl, rfl, hlen, -⟩ := buildImage_eq_some h
    exact hlen
  cases i with
  | decodeSubsampled => exact built (execSub_eq_ok.mp h).2
  | decodeFull => exact built (execFull_eq_ok.mp h).2
  | decodeFullDup => exact built (execFull_eq_ok.mp h).2

/-- From a canonical frame every command leaves a canonical image (R32, R34, R35). -/
theorem decoderOf_wf {i : Instr} {f : Frame} {img : Image} (hf : f.wf Config.params = true)
    (h : decoderOf i f = some (.ok img)) : img.wf Config.params = true := by
  have helem : ∀ e ∈ img.elems, e.wf Config.params img.kind = true := by
    intro e he
    obtain ⟨b, rfl, hb⟩ := decoderOf_isMean h he
    obtain ⟨hfin, hle, -⟩ := hb.inSampleRange Config.params_legal hf
    simp [Element.wf, hfin, hle]
  simpa [Image.wf, decoderOf_length h] using helem

end Sys2Proof.Machine
end

section
/-!
PROOFS. What one step of the machine does, as one list of updates (20_memory R60, 44_external_interface R150 to R158,
70_reset_and_hazards R190), and what every step keeps (10_state).
-/
namespace Sys2Proof.Machine

/-! ## The updates of a step -/

/-- The updates one step can make, once the events `rest` are left in pending: nothing, a host fault, a value handed
back, a frame loaded, a command accepted, a command completed (with an image or an error), or a reset. -/
inductive StepEffect (s : State) (rest : List Event) : State → Prop
  | pass : StepEffect s rest { s with pending := rest }
  | fault (e : HostFault) : StepEffect s rest (State.recordFault { s with pending := rest } e)
  | reply (r : Reply) : StepEffect s rest (State.reply { s with pending := rest } r)
  | load (ny nx : Nat) (v : List Nat) (turn : s.pending = .host (.loadFrame ny nx v) :: rest)
      (accepted : LoadAccepted Config.params ny nx v { s with pending := rest }) :
      StepEffect s rest (State.installFrame { s with pending := rest } ⟨ny, nx, v⟩)
  | start (a : HostAction) (w : Word) (turn : s.pending = .host a :: rest) (writes : WritesCmd Config.params w a)
      (not_busy : s.busy = false) (has_frame : s.mem.frame.isSome = true) :
      StepEffect s rest (State.startCommand { s with pending := rest } w)
  | finish (i : Instr) (f : Frame) (result : Except CommandError Image) (busy : s.busy = true)
      (command : decode s.cmd = .ok i) (frame : s.mem.frame = some f) (decoded : decoderOf i f = some result) :
      StepEffect s rest (State.complete { s with pending := rest } result)
  | refuse (e : Reserved) (busy : s.busy = true) (reserved : decode s.cmd = .error e) :
      StepEffect s rest (State.raiseError { s with pending := rest } .invalidCommand)
  | reset (turn : s.pending = .reset :: rest) : StepEffect s rest (State.resetEvent { s with pending := rest })

/-- ENGINE's step completes the command in CMD or refuses its word (R155). -/
theorem stepEffect_of_engineStep {s t : State} {rest : List Event} (hb : s.busy = true)
    (h : engineStep { s with pending := rest } = .next t) : StepEffect s rest t := by
  rcases engineStep_cases h with ⟨i, f, result, hi, hf, hdec, rfl⟩ | ⟨⟨e, he⟩, rfl⟩
  · exact .finish i f result hb hi hf hdec
  · exact .refuse e hb he

/-- HOST's turn records a fault, hands back a value, loads a frame or starts a command (R150 to R154). -/
theorem stepEffect_of_hostAct {s t : State} {a : HostAction} {rest : List Event} (hp : s.pending = .host a :: rest)
    (h : hostAct Config.params a { s with pending := rest } = .next t) : StepEffect s rest t := by
  rcases hostAct_cases h with ⟨e, rfl⟩ | ⟨r, rfl⟩ | ⟨ny, nx, v, rfl, hacc, rfl⟩ | ⟨w, hw, hb, hframe, rfl⟩
  · exact .fault e
  · exact .reply r
  · exact .load ny nx v hp hacc
  · exact .start a w hp hw hb hframe

/-- Every step makes one of these updates. -/
theorem step_effect {s t : State} (h : step s = .next t) : ∃ rest, StepEffect s rest t := by
  obtain ⟨rest, h⟩ := step_cases h
  refine ⟨rest, ?_⟩
  rcases h with ⟨hb, h⟩ | ⟨a, tail, hp, rfl, h⟩ | rfl | ⟨hp, rfl⟩ | ⟨-, rfl⟩
  · exact stepEffect_of_engineStep hb h
  · exact stepEffect_of_hostAct hp h
  · exact .reply _
  · exact .reset hp
  · exact .pass

/-! ## Completing a command (44_external_interface R155, R157, R158) -/

@[simp] theorem State.complete_cmd (s : State) (result : Except CommandError Image) :
    (s.complete result).cmd = s.cmd := by cases result <;> rfl
@[simp] theorem State.complete_ny (s : State) (result : Except CommandError Image) :
    (s.complete result).ny = s.ny := by cases result <;> rfl
@[simp] theorem State.complete_nx (s : State) (result : Except CommandError Image) :
    (s.complete result).nx = s.nx := by cases result <;> rfl
@[simp] theorem State.complete_mem_frame (s : State) (result : Except CommandError Image) :
    (s.complete result).mem.frame = s.mem.frame := by cases result <;> rfl
@[simp] theorem State.complete_faults (s : State) (result : Except CommandError Image) :
    (s.complete result).faults = s.faults := by cases result <;> rfl

/-- OUT holds an image after a completion only if that image is the result. -/
theorem State.complete_mem_image {s : State} {result : Except CommandError Image} {img : Image} :
    (s.complete result).mem.image = some img ↔ result = .ok img := by
  cases result <;> simp [State.complete]

/-! ## The updates keep the invariant (Safety.lean) -/

variable {p : Params} {s t : State}

/-- The invariant speaks of STATUS, NY, NX and the buffers alone. -/
theorem State.Inv.of_eq (h : s.Inv p) (hstatus : t.status = s.status) (hny : t.ny = s.ny) (hnx : t.nx = s.nx)
    (hmem : t.mem = s.mem) : t.Inv p := by
  obtain ⟨hs, hm, ha, hb, hi⟩ := h
  refine ⟨hstatus ▸ hs, hmem ▸ hm, ?_, ?_, ?_⟩
  · simpa only [State.shapeAgrees, hny, hnx, hmem] using ha
  · simpa only [State.busy, hstatus, hmem] using hb
  · simpa only [State.done, hstatus, hmem] using hi

theorem State.Inv.pass (h : s.Inv p) (rest : List Event) : State.Inv p { s with pending := rest } :=
  h.of_eq rfl rfl rfl rfl

theorem State.Inv.recordFault (h : s.Inv p) (e : HostFault) : (s.recordFault e).Inv p := h.of_eq rfl rfl rfl rfl

theorem State.Inv.reply (h : s.Inv p) (r : Reply) : (s.reply r).Inv p := h.of_eq rfl rfl rfl rfl

/-- An accepted LOAD_FRAME: the capacity below 2^32 lets NY and NX hold the shape (R27, R28). -/
theorem State.Inv.installFrame (hp : p.Legal) (h : s.Inv p) {ny nx : Nat} {v : List Nat}
    (hacc : LoadAccepted p ny nx v s) : (s.installFrame ⟨ny, nx, v⟩).Inv p := by
  obtain ⟨-, ⟨-, -, hmaxNy⟩, ⟨-, -, hmaxNx⟩⟩ := hp
  have hwf : Frame.wf p ⟨ny, nx, v⟩ = true := Frame.wf_iff.mpr ⟨hacc.ny_le, hacc.nx_le, hacc.length_eq, hacc.in_range⟩
  refine ⟨h.status_legal, installFrame_keeps_wf h.mem_wf hwf, ⟨?_, ?_⟩, fun _ => rfl, h.image_iff_done⟩
  · exact (BitVec.toNat_ofNat ny 32).trans (Nat.mod_eq_of_lt (hacc.ny_le.trans_lt hmaxNy))
  · exact (BitVec.toNat_ofNat nx 32).trans (Nat.mod_eq_of_lt (hacc.nx_le.trans_lt hmaxNx))

/-- An accepted command has its frame, and OUT is emptied (R151). -/
theorem State.Inv.startCommand (h : s.Inv p) (hframe : s.mem.frame.isSome = true) (w : Word) :
    (s.startCommand w).Inv p where
  status_legal := by simp [statusBusy, statusValues]
  mem_wf := startCommand_keeps_wf h.mem_wf
  shape_agrees := h.shape_agrees
  busy_has_frame := fun _ => hframe
  image_iff_done := by simp [State.done]

theorem State.Inv.completeImage (h : s.Inv p) {img : Image} (himg : img.wf p = true) :
    (s.completeImage img).Inv p where
  status_legal := by simp [statusDone, statusValues]
  mem_wf := completeImage_keeps_wf h.mem_wf himg
  shape_agrees := h.shape_agrees
  busy_has_frame := by simp [State.busy]
  image_iff_done := by simp [State.done]

theorem statusError_mem (e : CommandError) : statusError e ∈ statusValues := by cases e <;> decide

theorem State.Inv.raiseError (h : s.Inv p) (e : CommandError) : (s.raiseError e).Inv p where
  status_legal := statusError_mem e
  mem_wf := raiseError_keeps_wf h.mem_wf
  shape_agrees := h.shape_agrees
  busy_has_frame := by simp [State.busy]
  image_iff_done := by simp [State.done]

/-- A command's completion keeps the invariant, the image being canonical because the frame is. -/
theorem State.Inv.complete (h : s.Inv Config.params) {i : Instr} {f : Frame} {result : Except CommandError Image}
    (hf : s.mem.frame = some f) (hdec : decoderOf i f = some result) : (s.complete result).Inv Config.params := by
  cases result with
  | error e => exact h.raiseError e
  | ok img =>
    obtain ⟨hframe, -⟩ := Memory.wf_iff.mp h.mem_wf
    exact h.completeImage (decoderOf_wf (hframe f hf) hdec)

/-- With both buffers empty and STATUS, NY and NX zero, as reset leaves them, the invariant holds (R40). -/
theorem State.Inv.of_cleared (hstatus : s.status = 0) (hny : s.ny = 0) (hnx : s.nx = 0)
    (hmem : s.mem = { frame := none, image := none }) : s.Inv p where
  status_legal := by simp [hstatus, statusValues]
  mem_wf := by simp [hmem, Memory.wf]
  shape_agrees := by simp [State.shapeAgrees, hmem, hny, hnx]
  busy_has_frame := by simp [State.busy, hstatus]
  image_iff_done := by simp [State.done, hstatus, hmem]

/-- Every update of a step keeps the invariant. -/
theorem StepEffect.keeps_inv {rest : List Event} (h : StepEffect s rest t) (hs : s.Inv Config.params) :
    t.Inv Config.params := by
  have hpass := hs.pass rest
  cases h with
  | pass => exact hpass
  | fault e => exact hpass.recordFault e
  | reply r => exact hpass.reply r
  | load ny nx v _ hacc => exact hpass.installFrame Config.params_legal hacc
  | start a w _ _ _ hframe => exact hpass.startCommand hframe w
  | finish i f result _ _ hf hdec => exact hpass.complete hf hdec
  | refuse => exact hpass.raiseError .invalidCommand
  | reset => exact .of_cleared rfl rfl rfl rfl

end Sys2Proof.Machine
end
section
/-!
PROOFS. The settled statements about the state (10_state).
-/
namespace Sys2Proof.Machine

/-- Settles O48: each update a step can make keeps the invariant. -/
theorem stepKeepsTheInvariant : Obligations.StepKeepsTheInvariant := by
  intro s t hs hstep
  obtain ⟨rest, heff⟩ := step_effect hstep
  exact heff.keeps_inv hs

/-- Settles O10: a command's next state is its completion, which writes STATUS and OUT. -/
theorem commandFrame : Obligations.CommandFrame := by
  intro i s t h
  rw [exec_eq_runDecoder] at h
  obtain ⟨f, result, -, -, rfl⟩ := runDecoder_eq_next.mp h
  exact ⟨s.complete_frame result, fun j => by rw [State.complete_mem_frame]⟩

/-- Settles O32: every element is a mean of samples, and such a mean rounds into the range. -/
theorem fullElementsAreInRange : Obligations.FullElementsAreInRange := by
  intro dup s t f img hf hwf h himg e he
  rw [exec_eq_runDecoder] at h
  obtain ⟨f', result, hf', hdec, rfl⟩ := runDecoder_eq_next.mp h
  obtain rfl : f' = f := Option.some.inj (hf'.symm.trans hf)
  obtain rfl := State.complete_mem_image.mp himg
  obtain ⟨b, rfl, hb⟩ := decoderOf_isMean hdec he
  obtain ⟨hfin, hle, hsmall⟩ := hb.inSampleRange Config.params_legal hwf
  exact ⟨b, rfl, hfin, hle, hsmall⟩

/-- Settles O41: of the updates of a step only a loaded frame and a reset write NY, NX or IN. -/
theorem shapeAndFrameChangeOnlyOnLoadOrReset : Obligations.ShapeAndFrameChangeOnlyOnLoadOrReset := by
  intro s t hstep hload hreset
  obtain ⟨rest, heff⟩ := step_effect hstep
  cases heff with
  | load ny nx v hp _ => exact absurd hp (hload ny nx v rest)
  | reset hp => exact absurd hp (hreset rest)
  | finish i f result => simp
  | pass | fault | reply | start | refuse => exact ⟨rfl, rfl, rfl⟩

/-- Settles O42: of the updates of a step only an accepted command and a reset write CMD. -/
theorem cmdChangesOnlyOnWriteOrReset : Obligations.CmdChangesOnlyOnWriteOrReset := by
  intro s t hstep hcmd
  obtain ⟨rest, heff⟩ := step_effect hstep
  refine ⟨rest, ?_⟩
  cases heff with
  | start a w hp hw =>
    cases a with
    | write n w' =>
      obtain ⟨rfl, rfl⟩ := hw
      exact .inl ⟨w', hp, rfl⟩
    | busWrite addr bytes =>
      obtain ⟨rfl, hlen, -⟩ := hw
      exact .inr (.inl ⟨bytes, hp, hlen⟩)
    | loadFrame | read | readOut | busRead => exact hw.elim
  | reset hp => exact .inr (.inr hp)
  | finish i f result => exact absurd (State.complete_cmd _ result) hcmd
  | pass | fault | reply | load | refuse => exact absurd rfl hcmd

/-- Settles O45: of the updates of a step only a host fault touches the record, and it appends. -/
theorem faultRecordOnlyGrows : Obligations.FaultRecordOnlyGrows := by
  intro s t hstep
  obtain ⟨rest, heff⟩ := step_effect hstep
  cases heff with
  | fault e => exact ⟨[e], rfl⟩
  | finish i f result => exact ⟨[], by simp⟩
  | pass | reply | load | start | refuse | reset => exact ⟨[], (List.append_nil _).symm⟩

/-- Settles O5: each register reads as its reset value, STATUS through its mask. -/
theorem resetValues : Obligations.ResetValues :=
  ⟨rfl, rfl, rfl, rfl, rfl, rfl, rfl⟩

/-- Settles O47: reset clears STATUS, NY, NX and both buffers. -/
theorem resetMeetsTheInvariant : Obligations.ResetMeetsTheInvariant :=
  .of_cleared rfl rfl rfl rfl

end Sys2Proof.Machine
end
section
/-!
PROOFS. No step stops under the invariant: whatever a decoder reads lies in the frame (20_memory R58,
42_neighbor_averaging_pipeline R119), so every command completes and every agent's turn answers a next state
(44_external_interface R156).
-/
namespace Sys2Proof.Machine

/-! ## The neighbours the pipeline reads -/

/-- The sources of R116 stay in the pixel's own 2 × 2 tile. -/
theorem cornerSources_in_tile {r c : Nat} {k : Channel} {o : Offset}
    (ho : o = (cornerSources (role r c) k).1 ∨ o = (cornerSources (role r c) k).2) :
    (0 ≤ (r % 2 : Nat) + o.dr ∧ (r % 2 : Nat) + o.dr ≤ 1) ∧ 0 ≤ (c % 2 : Nat) + o.dc ∧ (c % 2 : Nat) + o.dc ≤ 1 := by
  rcases role_cases r c with ⟨hr, hc, hrole⟩ | ⟨hr, hc, hrole⟩ | ⟨hr, hc, hrole⟩ | ⟨hr, hc, hrole⟩
  all_goals
    rw [hrole] at ho
    rw [hr, hc]
    cases k <;> rcases ho with rfl | rfl <;> decide

/-- So they are inside every frame of even shape, which is made of whole tiles. -/
theorem cornerSources_inBounds {ny nx r c : Nat} (hny : ny % 2 = 0) (hnx : nx % 2 = 0) (hr : r < ny) (hc : c < nx)
    {k : Channel} {o : Offset} (ho : o = (cornerSources (role r c) k).1 ∨ o = (cornerSources (role r c) k).2) :
    inBounds ny nx (r + o.dr) (c + o.dc) = true := by
  have htile := cornerSources_in_tile ho
  rw [inBounds_iff]
  omega

variable {p : Params} {f : Frame} {r c : Nat}

theorem cornerCopy_isSome (hf : f.Complete) (hny : f.ny % 2 = 0) (hnx : f.nx % 2 = 0) (hr : r < f.ny) (hc : c < f.nx)
    (k : Channel) : (cornerCopy p f r c k).isSome = true := by
  have sampled {o : Offset} (ho : o = (cornerSources (role r c) k).1 ∨ o = (cornerSources (role r c) k).2) :
      ∃ v, f.neighbour r c o = some v :=
    Option.isSome_iff_exists.mp (Frame.neighbour_isSome hf (cornerSources_inBounds hny hnx hr hc ho))
  obtain ⟨v, hv⟩ := sampled (.inl rfl)
  obtain ⟨h, hh⟩ := sampled (.inr rfl)
  simp [cornerCopy, hv, hh]

/-- An interior pixel has its four diagonals (R110, R118). -/
theorem dupDiagonal_isSome (hf : f.Complete) (hr : r < f.ny) (hc : c < f.nx) (h : classOf f.ny f.nx r c = .interior)
    (k : Channel) : (dupDiagonal p f r c k).isSome = true := by
  have sampled (o : Offset) (ho : (-1 ≤ o.dr ∧ o.dr ≤ 1) ∧ (-1 ≤ o.dc ∧ o.dc ≤ 1)) :
      ∃ v, f.neighbour r c o = some v :=
    Option.isSome_iff_exists.mp (Frame.neighbour_isSome hf (inBounds_of_interior hr hc h ho))
  obtain ⟨nw, hnw⟩ := sampled ⟨-1, -1⟩ (by decide)
  obtain ⟨ne, hne⟩ := sampled ⟨-1, 1⟩ (by decide)
  obtain ⟨sw, hsw⟩ := sampled ⟨1, -1⟩ (by decide)
  obtain ⟨se, hse⟩ := sampled ⟨1, 1⟩ (by decide)
  simp [dupDiagonal, hnw, hne, hsw, hse]

/-! ## The elements of the two decoders -/

/-- Interp answers at every pixel of a complete frame of even shape (R117, R119). -/
theorem interp_isSome (hf : f.Complete) (hny : f.ny % 2 = 0) (hnx : f.nx % 2 = 0) (hr : r < f.ny) (hc : c < f.nx)
    (k : Channel) (dup : Bool) : (interp p f r c k dup).isSome = true := by
  have hsurv : (meanOver f r c (surviving f.ny f.nx r c k)).isSome = true :=
    meanOver_isSome hf fun _ ho => (mem_surviving.mp ho).2
  unfold interp
  split
  next =>
    have hin : inBounds f.ny f.nx r c = true := inBounds_iff.mpr (by omega)
    simpa using Frame.sample_isSome hf hin
  next =>
    split
    next => simpa using cornerCopy_isSome hf hny hnx hr hc k
    next => exact hsurv
    next hclass =>
      split
      · exact dupDiagonal_isSome hf hr hc hclass k
      · exact hsurv

/-- Every tile of a complete frame of even shape has its four samples (R100). -/
theorem subElement_isSome (hf : f.Complete) {i j : Nat} (hi : i < f.ny / 2) (hj : j < f.nx / 2) (k : Channel) :
    (subElement p f i j k).isSome = true := by
  have sampled {r c : Int} (hr : 0 ≤ r ∧ r < f.ny) (hc : 0 ≤ c ∧ c < f.nx) : ∃ v, f.sample r c = some v :=
    Option.isSome_iff_exists.mp (Frame.sample_isSome hf (inBounds_iff.mpr ⟨hr, hc⟩))
  cases k with
  | r =>
    obtain ⟨v, hv⟩ := sampled (r := 2 * i) (c := 2 * j + 1) (by omega) (by omega)
    simp [subElement, hv]
  | g =>
    obtain ⟨g1, hg1⟩ := sampled (r := 2 * i) (c := 2 * j) (by omega) (by omega)
    obtain ⟨g2, hg2⟩ := sampled (r := 2 * i + 1) (c := 2 * j + 1) (by omega) (by omega)
    simp [subElement, hg1, hg2]
  | b =>
    obtain ⟨v, hv⟩ := sampled (r := 2 * i + 1) (c := 2 * j) (by omega) (by omega)
    simp [subElement, hv]

/-! ## The commands -/

theorem execSub_isSome (hf : f.Complete) : ∃ result, execSub p f = some result := by
  unfold execSub
  split
  next e _ => exact ⟨.error e, rfl⟩
  next =>
    obtain ⟨img, himg⟩ := buildImage_isSome (kind := .sub) fun i j k hi hj => subElement_isSome (p := p) hf hi hj k
    exact ⟨.ok img, by rw [himg, Option.map_some]⟩

theorem execFull_isSome (hf : f.Complete) (dup : Bool) : ∃ result, execFull p dup f = some result := by
  unfold execFull
  split
  next e _ => exact ⟨.error e, rfl⟩
  next hgrid =>
    obtain ⟨⟨hny, hnx⟩, -, -⟩ := checkGridFull_eq_none.mp hgrid
    have helem (r c : Nat) (k : Channel) (hr : r < f.ny) (hc : c < f.nx) :
        (fullElement p f dup r c k).isSome = true := by
      simpa [fullElement] using interp_isSome hf hny hnx hr hc k dup
    obtain ⟨img, himg⟩ := buildImage_isSome (kind := .full) helem
    exact ⟨.ok img, by rw [himg, Option.map_some]⟩

/-- On a complete frame every command has a result: an image or an error of the grid (R58, R119). -/
theorem decoderOf_isSome (i : Instr) (hf : f.Complete) : ∃ result, decoderOf i f = some result := by
  cases i with
  | decodeSubsampled => exact execSub_isSome hf
  | decodeFull => exact execFull_isSome hf false
  | decodeFullDup => exact execFull_isSome hf true

/-! ## The turns -/

variable {s : State}

/-- With a complete frame in IN, ENGINE's step answers whatever word is in CMD (R155, R156). -/
theorem engineStep_isNext (hframe : s.mem.frame = some f) (hf : f.Complete) : ∃ t, engineStep s = .next t := by
  unfold engineStep
  split
  next i _ =>
    obtain ⟨result, hresult⟩ := decoderOf_isSome i hf
    rw [exec_eq_runDecoder]
    exact ⟨_, runDecoder_eq_next.mpr ⟨f, result, hframe, hresult, rfl⟩⟩
  next => exact ⟨_, rfl⟩

/-- Under the invariant a command in flight has a complete frame, so ENGINE's step answers. -/
theorem State.Inv.engineStep_isNext (h : s.Inv p) (hb : s.busy = true) : ∃ t, engineStep s = .next t := by
  obtain ⟨f, hframe⟩ := Option.isSome_iff_exists.mp (h.busy_has_frame hb)
  obtain ⟨hwf, -⟩ := Memory.wf_iff.mp h.mem_wf
  obtain ⟨-, -, hf, -⟩ := Frame.wf_iff.mp (hwf f hframe)
  exact Machine.engineStep_isNext hframe hf

theorem State.Inv.engineTurn_isNext (h : s.Inv p) : ∃ t, engineTurn s = .next t := by
  unfold engineTurn
  split
  next hb => exact h.engineStep_isNext hb
  next => exact ⟨_, rfl⟩

theorem State.Inv.waitTurn_isNext (h : s.Inv p) (spins : Nat) (rest : List Event) :
    ∃ t, waitTurn spins rest s = .next t := by
  unfold waitTurn
  split
  next hb =>
    cases spins with
    | zero => exact h.engineStep_isNext hb
    | succ n => exact ⟨_, rfl⟩
  next => exact ⟨_, rfl⟩

/-- Under the invariant the image in OUT is full, so no READ_OUT misses its element (R154, R157). -/
theorem State.Inv.hostAct_isNext (h : s.Inv p) (a : HostAction) : ∃ t, hostAct p a s = .next t := by
  obtain ⟨-, hwf⟩ := Memory.wf_iff.mp h.mem_wf
  refine Machine.hostAct_isNext fun img himg => ?_
  obtain ⟨hlen, -⟩ := Bool.and_eq_true_iff.mp (hwf img himg)
  exact beq_iff_eq.mp hlen

end Sys2Proof.Machine
end

section
/-!
PROOFS. HOST's turn on the machine, and the byte bus in front of the registers (20_memory R51, R54, R56).
-/
namespace Sys2Proof.Machine

/-- HOST's turn is one host action, the event consumed (R55, R60). -/
theorem step_host {s : State} {a : HostAction} {rest : List Event} (hp : s.pending = .host a :: rest) :
    step s = hostAct Config.params a { s with pending := rest } := by
  simp only [step, turn, hp]

/-- What is not a whole word at some register's address (R54, assumption 8). -/
theorem busAligned_eq_false {p : Params} {addr size : Nat} :
    busAligned p addr size = false ↔ size ≠ 4 ∨ addr < p.regBase ∨ (addr - p.regBase) % 4 ≠ 0 := by
  simp only [busAligned, Bool.and_eq_false_iff, beq_eq_false_iff_ne, decide_eq_false_iff_not, not_le, or_assoc]

variable {p : Params} {s : State}

/-- The bytes of a word, written at register n's address, are the WRITE of that word to it (R56). -/
theorem busWrite_register (n : Nat) (w : Word) :
    busWrite p (p.regBase + 4 * n) (wordToBytes p.hostByteOrder w) s = writeReg n w s := by
  simp only [busWrite, wordToBytes_length, busAligned_register, bytesToWord_wordToBytes, busRegister_register]

/-- A whole word read at register n's address is a read of that register (R56). -/
theorem busRead_register_of_some {n : Nat} {v : Word} (h : s.readReg n = some v) :
    busRead p (p.regBase + 4 * n) 4 s = s.reply (.bus (p.regBase + 4 * n) (wordToBytes p.hostByteOrder v)) := by
  simp only [busRead, busAligned_register, if_true, busRegister_register, h]

theorem busRead_register_of_none {n : Nat} (h : s.readReg n = none) :
    busRead p (p.regBase + 4 * n) 4 s = s.recordFault (.noSuchRegister n) := by
  simp only [busRead, busAligned_register, if_true, busRegister_register, h]

/-- Any other access only records BAD_REGISTER_ACCESS (R54). -/
theorem busWrite_misaligned {addr : Nat} {bytes : List Byte} (h : busAligned p addr bytes.length = false) :
    busWrite p addr bytes s = s.recordFault (.badRegisterAccess addr) := by
  simp only [busWrite, h]

theorem busRead_misaligned {addr size : Nat} (h : busAligned p addr size = false) :
    busRead p addr size s = s.recordFault (.badRegisterAccess addr) := by
  simp [busRead, h]

/-- The host actions that read: READ, READ_OUT and a bus read (R57). -/
def IsRead (a : HostAction) : Prop :=
  (∃ n, a = .read n) ∨ (∃ r c k, a = .readOut r c k) ∨ ∃ addr size, a = .busRead addr size

/-- A read only records a fault or hands back a value (R57, R153, R154). -/
theorem IsRead.hostAct_cases {a : HostAction} {t : State} (ha : IsRead a) (h : hostAct p a s = .next t) :
    (∃ e, t = s.recordFault e) ∨ ∃ r, t = s.reply r := by
  rcases Machine.hostAct_cases h with h | h | ⟨ny, nx, v, rfl, -⟩ | ⟨w, hw, -⟩
  · exact .inl h
  · exact .inr h
  · simp [IsRead] at ha
  · rcases ha with ⟨n, rfl⟩ | ⟨r, c, k, rfl⟩ | ⟨addr, size, rfl⟩ <;> exact hw.elim

end Sys2Proof.Machine
end

section
/-!
PROOFS. The settled statements about the memory and its agents (20_memory).
-/
namespace Sys2Proof.Machine

/-- Settles O49: whichever agent `pending` names, its turn answers under the invariant. -/
theorem stepNeverStopsUnderTheInvariant : Obligations.StepNeverStopsUnderTheInvariant := by
  intro s hs
  unfold step turn
  split
  next => exact hs.engineTurn_isNext
  next rest _ => exact (hs.pass rest).engineTurn_isNext
  next => exact ⟨_, rfl⟩
  next a rest _ => exact (hs.pass rest).hostAct_isNext a
  next spins rest _ => exact hs.waitTurn_isNext spins rest
  next => exact ⟨_, rfl⟩

/-- Settles O38: the laws of the bus operations, and the same at HOST's turn. -/
theorem busCarriesWholeAlignedWords : Obligations.BusCarriesWholeAlignedWords := by
  refine ⟨fun p s n w => ⟨?_, ?_, ?_, ?_⟩, fun s rest => ⟨?_, ?_, ?_, ?_⟩⟩
  · rintro bytes rfl
    exact busWrite_register n w
  · exact fun v hv => busRead_register_of_some hv
  · exact fun hnone => busRead_register_of_none hnone
  · intro addr bytes hbad
    have hmis := busAligned_eq_false.mpr hbad
    exact ⟨busWrite_misaligned hmis, busRead_misaligned hmis⟩
  · intro n w hp
    rw [step_host hp, step_host rfl]
    exact congrArg Host.Outcome.next (busWrite_register n w)
  · intro n hp
    rw [step_host hp]
    exact ⟨fun v hv => congrArg Host.Outcome.next (busRead_register_of_some hv),
      fun hnone => congrArg Host.Outcome.next (busRead_register_of_none hnone)⟩
  · intro addr bytes hp hbad
    rw [step_host hp]
    exact congrArg Host.Outcome.next (busWrite_misaligned (busAligned_eq_false.mpr hbad))
  · intro addr size hp hbad
    rw [step_host hp]
    exact congrArg Host.Outcome.next (busRead_misaligned (busAligned_eq_false.mpr hbad))

/-- Settles O40: a read only records a fault or hands back a value. -/
theorem readsChangeNoRegisterOrBuffer : Obligations.ReadsChangeNoRegisterOrBuffer := by
  intro s t a rest hp hread hstep
  rw [step_host hp] at hstep
  rcases IsRead.hostAct_cases hread hstep with ⟨e, rfl⟩ | ⟨r, rfl⟩
  · exact ⟨rfl, rfl, rfl, rfl, rfl, rfl⟩
  · exact ⟨rfl, rfl, rfl, rfl, rfl, rfl⟩

end Sys2Proof.Machine
end

section
/-!
PROOFS. The decoder and the encoder of the command word (30_encoding R71 to R75): a word is its three fields joined, so
it decodes to a command exactly when it is that command's word.
-/
namespace Sys2Proof

/-- The fields RSVD, DUP and OP are all of the word, in this order (R71). -/
theorem fields_append (w : Word) : fieldRsvd w ++ fieldDup w ++ fieldOp w = w := by
  rw [fieldRsvd, fieldDup, fieldOp, BitVec.extractLsb'_append_extractLsb'_eq_extractLsb' (by rfl),
    BitVec.extractLsb'_append_extractLsb'_eq_extractLsb' (by rfl), BitVec.extractLsb'_eq_self]

/-- What the decoder accepts has no reserved bit set and carries the command's OP and DUP (R72, R73). -/
theorem fields_of_decode {w : Word} {i : Instr} (h : decode w = .ok i) :
    fieldRsvd w = 0 ∧ encodeFields i = (fieldOp w, fieldDup w) := by
  unfold decode at h
  split_ifs at h with hrsvd hop1 hdup0 hop2 hdup0 <;> cases h
  · exact ⟨not_not.mp hrsvd, by rw [hop1, hdup0, encodeFields]⟩
  · exact ⟨not_not.mp hrsvd, by rw [hop2, hdup0, encodeFields]⟩
  · have hdup1 : fieldDup w = 1 := (BitVec.eq_zero_or_eq_one _).resolve_left hdup0
    exact ⟨not_not.mp hrsvd, by rw [hop2, hdup1, encodeFields]⟩

theorem decode_encode (i : Instr) : decode (encode i) = .ok i := by
  cases i <;> rfl

theorem decode_eq_ok {w : Word} {i : Instr} : decode w = .ok i ↔ w = encode i := by
  constructor
  · intro h
    obtain ⟨hrsvd, hfields⟩ := fields_of_decode h
    rw [encode, hfields, ← hrsvd, fields_append]
  · rintro rfl
    exact decode_encode i

/-! The words of the opcode map (R74) -/

theorem encode_decodeSubsampled : encode .decodeSubsampled = 0x00000001 := rfl
theorem encode_decodeFull : encode .decodeFull = 0x00000002 := rfl
theorem encode_decodeFullDup : encode .decodeFullDup = 0x00000006 := rfl

/-- Every other word is reserved (R74, R75). -/
theorem exists_decode_eq_error {w : Word} (hsub : w ≠ 0x00000001) (hfull : w ≠ 0x00000002) (hdup : w ≠ 0x00000006) :
    ∃ e, decode w = .error e := by
  cases h : decode w with
  | error e => exact ⟨e, rfl⟩
  | ok i =>
    have hw := decode_eq_ok.mp h
    cases i with
    | decodeSubsampled => exact absurd hw hsub
    | decodeFull => exact absurd hw hfull
    | decodeFullDup => exact absurd hw hdup

end Sys2Proof
end

section
/-!
PROOFS. ENGINE's turns and WAIT on the machine (30_encoding R80; 44_external_interface R155, R159), an accepted write of
CMD (R151), and ENGINE's step on a reserved word (R75, R173).
-/
namespace Sys2Proof.Machine

variable {s : State}

/-! ## Whose turn it is (assumption 1) -/

theorem step_nothing_pending (hp : s.pending = []) : step s = engineTurn s := by
  simp only [step, turn, hp]

theorem step_engine {rest : List Event} (hp : s.pending = .engine :: rest) :
    step s = engineTurn { s with pending := rest } := by
  simp only [step, turn, hp]

theorem step_wait {spins : Nat} {rest : List Event} (hp : s.pending = .wait spins :: rest) :
    step s = waitTurn spins rest s := by
  simp only [step, turn, hp]

theorem engineTurn_of_busy (hb : s.busy = true) : engineTurn s = engineStep s := if_pos hb

/-! ## WAIT (R80) -/

theorem waitTurn_of_not_busy (hb : s.busy = false) (spins : Nat) (rest : List Event) :
    waitTurn spins rest s = .next { poll s with pending := rest } := by
  simp [waitTurn, hb]

theorem waitTurn_zero_of_busy (hb : s.busy = true) (rest : List Event) : waitTurn 0 rest s = engineStep s := by
  simp [waitTurn, hb]

theorem waitTurn_succ_of_busy (hb : s.busy = true) (n : Nat) (rest : List Event) :
    waitTurn (n + 1) rest s = .next { poll s with pending := .wait n :: rest } := by
  simp [waitTurn, hb]

/-! ## A command word from its write to its end -/

/-- WRITE CMD is accepted outside BUSY with a frame in IN, whatever the word (R151). -/
theorem writeReg_zero_accepted (hb : s.busy = false) (hframe : s.mem.frame.isSome = true) (w : Word) :
    writeReg 0 w s = s.startCommand w := by
  simp [writeReg, writeCmd, hb, Option.isSome_iff_ne_none.mp hframe]

theorem raiseError_invalidCommand (s : State) : s.raiseError .invalidCommand = Claims.failed s 0x00000023 := rfl

/-- A reserved word in CMD ends in INVALID_COMMAND, with no look at the frame (R156, R173). -/
theorem engineStep_of_reserved {e : Reserved} (h : decode s.cmd = .error e) :
    engineStep s = .next (Claims.failed s 0x00000023) := by
  simp only [engineStep, h, raiseError_invalidCommand]

theorem engineTurn_of_reserved {e : Reserved} (hb : s.busy = true) (h : decode s.cmd = .error e) :
    engineTurn s = .next (Claims.failed s 0x00000023) :=
  (engineTurn_of_busy hb).trans (engineStep_of_reserved h)

end Sys2Proof.Machine
end

section
/-!
PROOFS. The settled statements about the command word and the traces (30_encoding).
-/
namespace Sys2Proof.Machine

/-- Settles O1: only a command's own word decodes to it, and there are three. -/
theorem decodeIsTheOpcodeMap : Obligations.DecodeIsTheOpcodeMap := by
  refine ⟨fun w => ?_, encode_decodeSubsampled, encode_decodeFull, encode_decodeFullDup⟩
  split_ifs with hsub hfull hdup
  · rw [hsub, ← encode_decodeSubsampled, decode_encode, Except.toOption]
  · rw [hfull, ← encode_decodeFull, decode_encode, Except.toOption]
  · rw [hdup, ← encode_decodeFullDup, decode_encode, Except.toOption]
  · obtain ⟨e, he⟩ := exists_decode_eq_error hsub hfull hdup
    rw [he, Except.toOption]

/-- Settles O2: a word decodes to a command exactly when it is that command's word. -/
theorem decodeInvertsEncodeExactly : Obligations.DecodeInvertsEncodeExactly :=
  ⟨decode_encode, fun _ _ => decode_eq_ok.mp⟩

/-- Settles O3: three words are commands' own, and the decoder computes the refusal of the other five. -/
theorem writtenOutWordsDecode : Obligations.WrittenOutWordsDecode :=
  ⟨decode_encode .decodeSubsampled, decode_encode .decodeFull, decode_encode .decodeFullDup, rfl, rfl, rfl, rfl, rfl⟩

/-- Settles O4: the write is accepted whatever its word, and each of ENGINE's turns then refuses a reserved one. -/
theorem reservedWordEndsInInvalidCommand : Obligations.ReservedWordEndsInInvalidCommand := by
  intro s w hsub hfull hdup
  refine ⟨fun rest hp hb hframe => ⟨?_, rfl⟩, ?_⟩
  · rw [step_host hp]
    exact congrArg Host.Outcome.next (writeReg_zero_accepted (s := { s with pending := rest }) hb hframe w)
  · rintro hb rfl
    obtain ⟨e, he⟩ := exists_decode_eq_error hsub hfull hdup
    refine ⟨fun hp => ?_, fun rest hp => ?_, fun rest hp => ?_⟩
    · exact (step_nothing_pending hp).trans (engineTurn_of_reserved hb he)
    · exact (step_engine hp).trans (engineTurn_of_reserved hb he)
    · rw [step_wait hp, waitTurn_zero_of_busy hb, engineStep_of_reserved he]

/-- Settles O39: a WAIT polls, or gives its turn to ENGINE, as BUSY and the polls left say. -/
theorem waitPollsUntilNotBusy : Obligations.WaitPollsUntilNotBusy := by
  intro s spins rest hp
  rw [step_wait hp]
  refine ⟨fun hb => ?_, fun hb hpos => ?_, ?_⟩
  · rw [waitTurn_of_not_busy hb, poll_eq, State.reply]
  · obtain ⟨n, rfl⟩ := Nat.exists_eq_succ_of_ne_zero hpos.ne'
    rw [Nat.succ_eq_add_one, waitTurn_succ_of_busy hb, poll_eq, State.reply, Nat.add_sub_cancel]
  · rintro hb rfl
    exact waitTurn_zero_of_busy hb rest

end Sys2Proof.Machine
end

section
/-!
PROOFS. The CFA grid (40_cfa_grid_model R90 to R97): the index partitions of an even dimension are its indices of each
parity, and a role is the parities of its position, so the sites of a role are a product of partitions.
-/
namespace Sys2Proof.Machine

/-! ## The index partitions by parity (R93) -/

theorem mem_evenIndices {n i : Nat} (hn : n % 2 = 0) (hi : i < n) : i ∈ evenIndices n ↔ i % 2 = 0 := by
  simp only [evenIndices, List.mem_map, List.mem_range]
  constructor
  · rintro ⟨k, -, rfl⟩
    exact Nat.mul_mod_right 2 k
  · intro heven
    exact ⟨i / 2, by omega, by omega⟩

theorem mem_oddIndices {n i : Nat} (hn : n % 2 = 0) (hi : i < n) : i ∈ oddIndices n ↔ i % 2 = 1 := by
  simp only [oddIndices, List.mem_map, List.mem_range]
  constructor
  · rintro ⟨k, -, rfl⟩
    exact Nat.mul_add_mod 2 k 1
  · intro hodd
    exact ⟨i / 2, by omega, by omega⟩

/-! ## The settled statement -/

/-- Settles O14: membership in a partition is a parity, and the role map is the table of the four pairs of parities. -/
theorem roleSitesAreParityProducts : Obligations.RoleSitesAreParityProducts := by
  intro ny nx r c hny hnx hr hc
  rw [mem_evenIndices hny hr, mem_evenIndices hnx hc, mem_oddIndices hny hr, mem_oddIndices hnx hc]
  rcases role_cases r c with ⟨hrow, hcol, hrole⟩ | ⟨hrow, hcol, hrole⟩ | ⟨hrow, hcol, hrole⟩ | ⟨hrow, hcol, hrole⟩
  all_goals simp [hrow, hcol, hrole]

end Sys2Proof.Machine
end

section
/-!
PROOFS. The exact means (42_neighbor_averaging_pipeline R121, R122): a quotient by a divisor of four is a whole number of
quarters, and binary64 holds every quarter below 2^32.
-/
namespace Sys2Proof.Machine

/-- A quotient that is a multiple of 2^j units (j at least the scale) is its own rounding. -/
theorem rnd64_units_eq {num den j k : Nat} (hd : 0 < den) (hn : num < den * 2 ^ 32) (hj : rnd64Scale num den ≤ j)
    (h : num * 2 ^ unitExponent = k * 2 ^ j * den) : binary64Units (rnd64 num den) = k * 2 ^ j :=
  Nat.le_antisymm (rnd64_units_le hd hn hj h.le) (le_rnd64_units hd hn hj h.ge)

/-- A quotient below 2^32 by a divisor of four is not rounded: `den` times its binary64 value is `num`. -/
theorem rnd64_units_exact {num den : Nat} (hdvd : den ∣ 4) (hn : num < den * 2 ^ 32) :
    binary64Finite (rnd64 num den) = true ∧ den * binary64Units (rnd64 num den) = num * 2 ^ unitExponent := by
  have hd : 0 < den := Nat.pos_of_dvd_of_pos hdvd four_pos
  obtain ⟨q, hq⟩ := hdvd
  have hfour : 2 ^ 2 = den * q := hq
  have hunit : unitExponent = 2 + 1072 := by unfold unitExponent; rfl
  have hquarters : num * 2 ^ unitExponent = num * q * 2 ^ 1072 * den := by
    rw [hunit, pow_add, hfour]
    generalize 2 ^ 1072 = quarter
    ring
  refine ⟨(rnd64_units hd (lt_mul_two_pow_1023 hn)).1, ?_⟩
  rw [rnd64_units_eq hd hn (rnd64Scale_le hd hn) hquarters, hquarters, Nat.mul_comm]

end Sys2Proof.Machine
end

section
/-!
PROOFS. What a command leaves behind, by its decoder's result (44_external_interface R155, R157, R158), and a READ_OUT
outside the image (R154).
-/
namespace Sys2Proof.Machine

variable {s : State} {f : Frame} {img : Image}

/-- A command completes with an image exactly when its decoder answers that image. -/
theorem exec_eq_completed {i : Instr} (hframe : s.mem.frame = some f) :
    exec i s = .next (Claims.completed s img) ↔ decoderOf i f = some (.ok img) := by
  rw [exec_eq_runDecoder, runDecoder_eq_next]
  constructor
  · rintro ⟨f', result, hf', hdec, hstate⟩
    obtain rfl : f' = f := Option.some.inj (hf'.symm.trans hframe)
    have himg : (s.complete result).mem.image = some img := by rw [← hstate]; rfl
    rwa [← State.complete_mem_image.mp himg]
  · intro hdec
    exact ⟨f, .ok img, hframe, hdec, rfl⟩

/-- A command whose decoder rejects the grid ends in STATUS 0x13 (R158, R172). -/
theorem exec_of_invalidGrid {i : Instr} (hframe : s.mem.frame = some f)
    (hdec : decoderOf i f = some (.error .invalidGrid)) : exec i s = .next (Claims.failed s 0x00000013) := by
  rw [exec_eq_runDecoder]
  exact runDecoder_eq_next.mpr ⟨f, _, hframe, hdec, rfl⟩

/-- In state DONE a READ_OUT outside the image's shape records OUT_INDEX_RANGE (R154). -/
theorem readOut_outside {r c k : Nat} (hdone : s.done = true) (himg : s.mem.image = some img)
    (h : img.rows ≤ r ∨ img.cols ≤ c ∨ 3 ≤ k) : readOut r c k s = .next (s.recordFault (.outIndexRange r c k)) := by
  simp only [readOut, hdone, himg, if_pos h]

/-- An image without pixels is built without reading any element. -/
theorem buildImage_of_no_pixel {kind : ImageKind} {rows cols : Nat} (h : rows * cols = 0)
    (elem : Nat → Nat → Channel → Option Element) :
    buildImage kind rows cols elem = some { kind := kind, rows := rows, cols := cols, elems := [] } := by
  simp [buildImage, h, allSome]

end Sys2Proof.Machine
end

section
/-!
PROOFS. The subsampling decoder (41_subsampling_decoder R100 to R104): its shape check, and the elements of a tile from
the tile's four samples.
-/
namespace Sys2Proof.Machine

variable {p : Params} {f : Frame} {i j : Nat}

/-! ## The shape check (R94) -/

theorem checkGridSub_of_subShape (h : Claims.SubShape f) : checkGridSub f.ny f.nx = none := by
  simp [checkGridSub, h]

theorem checkGridSub_of_not_subShape (h : ¬ Claims.SubShape f) : checkGridSub f.ny f.nx = some .invalidGrid :=
  if_pos (not_and_or.mp h)

theorem execSub_of_not_subShape (h : ¬ Claims.SubShape f) : execSub p f = some (.error .invalidGrid) := by
  simp only [execSub, checkGridSub_of_not_subShape h]

/-- A complete frame of even shape decodes to an image (R100). -/
theorem execSub_of_subShape (hf : f.Complete) (h : Claims.SubShape f) : ∃ img, execSub p f = some (.ok img) := by
  obtain ⟨img, himg⟩ := buildImage_isSome (kind := .sub) fun i j k hi hj => subElement_isSome (p := p) hf hi hj k
  exact ⟨img, execSub_eq_ok.mpr ⟨checkGridSub_of_subShape h, himg⟩⟩

/-! ## The elements of a tile (R100 to R102) -/

theorem subElement_r : subElement p f i j .r = (f.sample (2 * i : Nat) (2 * j + 1 : Nat)).map (subValue p) := rfl

theorem subElement_g : subElement p f i j .g =
    Option.map₂ (subGreen p) (f.sample (2 * i : Nat) (2 * j : Nat)) (f.sample (2 * i + 1 : Nat) (2 * j + 1 : Nat)) := by
  simp only [subElement, Nat.cast_add, Nat.cast_one]
  cases f.sample (2 * i : Nat) (2 * j : Nat) <;>
    cases f.sample ((2 * i : Nat) + 1) ((2 * j : Nat) + 1) <;> rfl

theorem subElement_b : subElement p f i j .b = (f.sample (2 * i + 1 : Nat) (2 * j : Nat)).map (subValue p) := rfl

theorem subValue_of_exact (hp : p.subGMode = .exact) (v : Nat) : subValue p v = .f64 (f64 v) := by
  simp only [subValue, hp]

theorem subGreen_of_exact (hp : p.subGMode = .exact) (g1 g2 : Nat) :
    subGreen p g1 g2 = .f64 (rnd64 (g1 + g2) 2) := by
  simp only [subGreen, hp]

theorem subGreen_of_truncate (hp : p.subGMode = .truncate) (g1 g2 : Nat) :
    subGreen p g1 g2 = .nat ((g1 + g2) / 2) := by
  simp only [subGreen, hp]

/-- The four samples of source tile (i, j) of a frame (R100). -/
structure Frame.Tile (f : Frame) (i j g1 rv bv g2 : Nat) : Prop where
  g1_eq : f.sample (2 * i : Nat) (2 * j : Nat) = some g1
  r_eq : f.sample (2 * i : Nat) (2 * j + 1 : Nat) = some rv
  b_eq : f.sample (2 * i + 1 : Nat) (2 * j : Nat) = some bv
  g2_eq : f.sample (2 * i + 1 : Nat) (2 * j + 1 : Nat) = some g2

/-- A complete frame has every tile of its halved shape. -/
theorem Frame.exists_tile (hf : f.Complete) (hi : i < f.ny / 2) (hj : j < f.nx / 2) :
    ∃ g1 rv bv g2, f.Tile i j g1 rv bv g2 := by
  have sampled {r c : Nat} (hr : r < f.ny) (hc : c < f.nx) : ∃ v, f.sample r c = some v :=
    Option.isSome_iff_exists.mp (Frame.sample_isSome hf (inBounds_iff.mpr (by omega)))
  obtain ⟨g1, hg1⟩ := sampled (r := 2 * i) (c := 2 * j) (by omega) (by omega)
  obtain ⟨rv, hr⟩ := sampled (r := 2 * i) (c := 2 * j + 1) (by omega) (by omega)
  obtain ⟨bv, hb⟩ := sampled (r := 2 * i + 1) (c := 2 * j) (by omega) (by omega)
  obtain ⟨g2, hg2⟩ := sampled (r := 2 * i + 1) (c := 2 * j + 1) (by omega) (by omega)
  exact ⟨g1, rv, bv, g2, hg1, hr, hb, hg2⟩

/-- Under SUB_G_MODE = EXACT: the red sample, the mean of the greens and the blue sample of the tile (R101, R102). -/
theorem Frame.Tile.subElement_eq {g1 rv bv g2 : Nat} (h : f.Tile i j g1 rv bv g2) (hp : p.subGMode = .exact) :
    subElement p f i j .r = some (.f64 (f64 rv)) ∧ subElement p f i j .g = some (.f64 (rnd64 (g1 + g2) 2)) ∧
      subElement p f i j .b = some (.f64 (f64 bv)) := by
  refine ⟨?_, ?_, ?_⟩
  · rw [subElement_r, h.r_eq, Option.map_some, subValue_of_exact hp]
  · rw [subElement_g, h.g1_eq, h.g2_eq, Option.map₂_some_some, subGreen_of_exact hp]
  · rw [subElement_b, h.b_eq, Option.map_some, subValue_of_exact hp]

end Sys2Proof.Machine
end

section
/-!
PROOFS. The settled statements about DECODE_SUBSAMPLED (41_subsampling_decoder).
-/
namespace Sys2Proof.Machine

/-- Settles O15: the decoder builds the image of the tiles of an even shape, and rejects an odd one. -/
theorem subsampledGathersTiles : Obligations.SubsampledGathersTiles := by
  intro s f hframe hf
  refine ⟨fun hshape => ?_, fun hodd => exec_of_invalidGrid hframe (execSub_of_not_subShape hodd)⟩
  obtain ⟨img, hdec⟩ := execSub_of_subShape (p := Config.params) hf hshape
  obtain ⟨hkind, hrows, hcols, hlen, helem⟩ := buildImage_eq_some (execSub_eq_ok.mp hdec).2
  refine ⟨img, (exec_eq_completed hframe).mpr hdec, hkind, hrows, hcols, hlen, fun i j hi hj => ?_⟩
  obtain ⟨g1, rv, bv, g2, htile⟩ := Frame.exists_tile hf hi hj
  obtain ⟨hr, hg, hb⟩ := htile.subElement_eq Config.params_subGMode
  exact ⟨g1, rv, bv, g2, htile.g1_eq, htile.r_eq, htile.b_eq, htile.g2_eq,
    (helem i j .r hi hj).trans hr, (helem i j .g hi hj).trans hg, (helem i j .b hi hj).trans hb⟩

/-- Settles O16: half the sum of two samples is a whole number of quarters below 2^32, which rounding keeps. -/
theorem subsampledGreenIsTheExactMean : Obligations.SubsampledGreenIsTheExactMean := by
  intro p g1 g2 h1 h2
  refine ⟨fun hexact => ?_, fun htrunc => subGreen_of_truncate htrunc g1 g2⟩
  exact ⟨_, subGreen_of_exact hexact g1 g2, rnd64_units_exact (by decide) (by omega)⟩

/-- Settles O18: an element of the image is the one computed from its tile, whose four samples agree. -/
theorem subsampledTileIsLocal : Obligations.SubsampledTileIsLocal := by
  intro s s' f f' img img' i j hframe hframe' hny hnx h h' hi hj hg1 hr hb hg2 k
  have hdec := (exec_eq_completed hframe).mp h
  have hdec' := (exec_eq_completed hframe').mp h'
  obtain ⟨-, -, -, -, helem⟩ := buildImage_eq_some (execSub_eq_ok.mp hdec).2
  obtain ⟨-, -, -, -, helem'⟩ := buildImage_eq_some (execSub_eq_ok.mp hdec').2
  rw [helem i j k hi hj, helem' i j k (hny ▸ hi) (hnx ▸ hj)]
  cases k with
  | r => rw [subElement_r, subElement_r, hr]
  | g => rw [subElement_g, subElement_g, hg1, hg2]
  | b => rw [subElement_b, subElement_b, hb]

/-- Settles O17: with no pixel there is no element to compute, and every index lies outside the shape. -/
theorem subsampledEmptyFrameCompletesEmpty : Obligations.SubsampledEmptyFrameCompletesEmpty := by
  intro s f hframe _ hshape hempty
  have hpixels : f.ny / 2 * (f.nx / 2) = 0 := by rcases hempty with h | h <;> simp [h]
  have hdec := execSub_eq_ok.mpr
    ⟨checkGridSub_of_subShape hshape, buildImage_of_no_pixel hpixels (subElement Config.params f)⟩
  refine ⟨(exec_eq_completed hframe).mpr hdec, fun r c k => readOut_outside rfl rfl ?_⟩
  simp only
  omega

end Sys2Proof.Machine
end

section
/-!
PROOFS. Rounding to nearest (42_neighbor_averaging_pipeline R120 to R123): the natural and the binary64 value nearest to
a quotient, and the quotients binary64 holds exactly.
-/
namespace Sys2Proof.Machine

/-! ## The nearest natural (R121) -/

/-- No natural is nearer to the quotient than the rounded one, and one as near leaves it even. -/
theorem roundEven_nearest {num den : Nat} (hd : 0 < den) {k : Nat} (hk : k ≠ roundEven num den) :
    ((roundEven num den * den : Nat) - num : Int).natAbs ≤ ((k * den : Nat) - num : Int).natAbs ∧
      (((k * den : Nat) - num : Int).natAbs = ((roundEven num den * den : Nat) - num : Int).natAbs →
        roundEven num den % 2 = 0) := by
  obtain ⟨hupper, hlower, htie⟩ := roundEven_within (num := num) hd
  generalize roundEven num den = m at *
  have hstep : k * den + den ≤ m * den ∨ m * den + den ≤ k * den := by
    rw [← Nat.succ_mul, ← Nat.succ_mul]
    exact (Nat.lt_or_gt_of_ne hk).imp (Nat.mul_le_mul_right den) (Nat.mul_le_mul_right den)
  omega

/-- What lies below a natural that the quotient reaches is farther from the quotient than the rounded natural. -/
theorem roundEven_nearer_than_below {num den k x : Nat} (hd : 0 < den) (hk : k * den ≤ num) (hx : x < k * den) :
    ((roundEven num den * den : Nat) - num : Int).natAbs < ((x : Int) - num).natAbs := by
  have hm := le_roundEven hd hk
  obtain ⟨hupper, hlower, -⟩ := roundEven_within (num := num) hd
  rcases hm.eq_or_lt with h | h
  · rw [← h] at hupper hlower ⊢
    omega
  · have hstep : k * den + den ≤ roundEven num den * den := by
      rw [← Nat.succ_mul]
      exact Nat.mul_le_mul_right den h
    omega

/-! ## The nearest binary64 value (R9, R121) -/

variable {num den : Nat}

/-- The distance as one of naturals. -/
theorem distance_eq (b : Binary64) (num den : Nat) :
    Claims.distance b num den =
      ((den * binary64Units b : Nat) - (num * 2 ^ unitExponent : Nat) : Int).natAbs := by
  unfold Claims.distance
  push_cast
  rfl

/-- The distance of rnd64's answer is that of its significand, counted in the quotient's own scale. -/
theorem distance_rnd64 (hd : 0 < den) (hn : num < den * 2 ^ 1023) :
    Claims.distance (rnd64 num den) num den =
      ((rnd64Significand num den * (den * 2 ^ rnd64Scale num den) : Nat) -
        (num * 2 ^ unitExponent : Nat) : Int).natAbs := by
  rw [distance_eq, (rnd64_units hd hn).2, Nat.mul_left_comm]

/-- The significand of rnd64's answer is even exactly when its pattern is. -/
theorem rnd64_toNat_mod_two (hd : 0 < den) (hn : num < den * 2 ^ 1023) :
    (rnd64 num den).toNat % 2 = rnd64Significand num den % 2 := by
  obtain ⟨hrnd, hscale, hsig, -⟩ := rnd64_spec hd hn
  rw [hrnd, BitVec.toNat_ofNat]
  omega

/-- Another finite value is no nearer to the quotient than rnd64's answer, and one as near leaves an even significand:
it is another multiple of the scale, or below every significand of 53 bits at that scale. -/
theorem rnd64_nearest (hd : 0 < den) (hn : num < den * 2 ^ 1023) {b : Binary64} (hb : binary64Finite b = true)
    (hne : b ≠ rnd64 num den) :
    Claims.distance (rnd64 num den) num den ≤ Claims.distance b num den ∧
      (Claims.distance b num den = Claims.distance (rnd64 num den) num den → (rnd64 num den).toNat % 2 = 0) := by
  obtain ⟨hfin, hunits⟩ := rnd64_units hd hn
  have hD : 0 < den * 2 ^ rnd64Scale num den := by positivity
  rw [distance_eq b, distance_rnd64 hd hn, rnd64_toNat_mod_two hd hn]
  rcases binary64Units_multiple hb (rnd64Scale num den) with ⟨k, hk⟩ | ⟨hpos, hsmall⟩
  · have hkm : k ≠ rnd64Significand num den := by
      rintro rfl
      exact hne (binary64Units_inj hb hfin (hk.trans hunits.symm))
    rw [hk, Nat.mul_left_comm den]
    exact roundEven_nearest hD hkm
  · obtain ⟨-, -, -, -, hzero | ⟨-, hreach⟩⟩ := rnd64_spec hd hn
    · omega
    have hbelow : den * binary64Units b < 2 ^ 52 * (den * 2 ^ rnd64Scale num den) := by
      rw [Nat.mul_left_comm (2 ^ 52)]
      exact Nat.mul_lt_mul_of_pos_left hsmall hd
    have hfar := roundEven_nearer_than_below hD hreach hbelow
    exact ⟨hfar.le, fun htie => absurd htie hfar.ne'⟩

/-! ## The quotients binary64 holds (R122) -/

/-- The scale of a quotient of m·2^j units, m of 53 bits at most, is no coarser than 2^j. -/
theorem rnd64Scale_le_of_significand {j m : Nat} (hd : 0 < den) (hm : m < 2 ^ 53)
    (h : num * 2 ^ unitExponent = m * 2 ^ j * den) : rnd64Scale num den ≤ j := by
  unfold rnd64Scale
  rw [h, Nat.mul_div_cancel _ hd]
  rcases Nat.eq_zero_or_pos m with rfl | hpos
  · simp
  have hlt : m * 2 ^ j < 2 ^ (53 + j) := by
    rw [pow_add]
    exact Nat.mul_lt_mul_of_pos_right hm (by positivity)
  have hlog := (Nat.log2_lt (by positivity)).mpr hlt
  omega

/-- Such a quotient is its own rounding. -/
theorem rnd64_units_of_significand {j m : Nat} (hd : 0 < den) (hn : num < den * 2 ^ 1023) (hm : m < 2 ^ 53)
    (h : num * 2 ^ unitExponent = m * 2 ^ j * den) : binary64Units (rnd64 num den) = m * 2 ^ j := by
  obtain ⟨d, rfl⟩ := Nat.exists_eq_add_of_le (rnd64Scale_le_of_significand hd hm h)
  have hwhole : num * 2 ^ unitExponent = m * 2 ^ d * (den * 2 ^ rnd64Scale num den) := by
    rw [h, pow_add]
    ring
  rw [(rnd64_units hd hn).2, rnd64Significand, hwhole, roundEven_mul (by positivity), pow_add]
  ring

/-- The same with the denominator on the other side: den times the binary64 value is num. -/
theorem rnd64_exact_of_significand {j m : Nat} (hd : 0 < den) (hn : num < den * 2 ^ 1023) (hm : m < 2 ^ 53)
    (h : num * 2 ^ unitExponent = m * 2 ^ j * den) :
    den * binary64Units (rnd64 num den) = num * 2 ^ unitExponent := by
  rw [rnd64_units_of_significand hd hn hm h, h, Nat.mul_comm]

theorem lt_mul_two_pow_1023_of_lt_two_pow_53 (hd : 0 < den) (h : num < 2 ^ 53) : num < den * 2 ^ 1023 := by
  have hpow : (2 : Nat) ^ 53 ≤ 2 ^ 1023 := pow_le_pow_right₀ one_le_two (by decide)
  exact (h.trans_le hpow).trans_le (Nat.le_mul_of_pos_left _ hd)

/-- Means of one, two or four terms are whole quarters, so a sum below 2^51 has an exact mean. -/
theorem mean_units_of_dvd_four {sum n : Nat} (hdvd : n ∣ 4) (hsum : sum < 2 ^ 51) :
    n * binary64Units (mean sum n) = sum * 2 ^ unitExponent := by
  have hn : 0 < n := Nat.pos_of_dvd_of_pos hdvd four_pos
  obtain ⟨q, hq⟩ := hdvd
  have hq4 : q ≤ 4 := Nat.le_of_dvd four_pos ⟨n, by rw [hq, Nat.mul_comm]⟩
  have hunit : unitExponent = 2 + 1072 := by unfold unitExponent; rfl
  have hquarters : sum * 2 ^ unitExponent = sum * q * 2 ^ 1072 * n := by
    rw [hunit, pow_add, show 2 ^ 2 = n * q from hq]
    generalize 2 ^ 1072 = quarter
    ring
  have hm : sum * q < 2 ^ 53 := by
    calc sum * q ≤ sum * 4 := Nat.mul_le_mul_left _ hq4
      _ < 2 ^ 53 := by omega
  exact rnd64_exact_of_significand hn (lt_mul_two_pow_1023_of_lt_two_pow_53 hn (by omega)) hm hquarters

/-- A sum of three that three divides has a natural for its mean, which is exact. -/
theorem mean_three_units {sum : Nat} (hsum : sum < 2 ^ 53) (hdvd : 3 ∣ sum) :
    3 * binary64Units (mean sum 3) = sum * 2 ^ unitExponent := by
  obtain ⟨q, rfl⟩ := hdvd
  have hq : q < 2 ^ 53 := by omega
  have hn := lt_mul_two_pow_1023_of_lt_two_pow_53 (den := 3) three_pos hsum
  exact rnd64_exact_of_significand (j := unitExponent) three_pos hn hq (by ring)

/-- Two values as far from a quotient by three as each other, on its two sides, have twice the numerator for three times
their sum: so the numerator is a multiple of three (R122: a tie cannot occur). -/
theorem three_dvd_of_tie {sum : Nat} {b b' : Binary64} (hne : binary64Units b ≠ binary64Units b')
    (htie : Claims.distance b sum 3 = Claims.distance b' sum 3) : 3 ∣ sum := by
  have hsides : 3 * (binary64Units b + binary64Units b') = 2 * (sum * 2 ^ unitExponent) := by
    rw [distance_eq, distance_eq] at htie
    generalize sum * 2 ^ unitExponent = t at *
    omega
  have hdvd : 3 ∣ sum * 2 ^ unitExponent :=
    (show Nat.Coprime 3 2 by decide).dvd_of_dvd_mul_left ⟨_, hsides.symm⟩
  exact (Nat.Coprime.pow_right _ (show Nat.Coprime 3 2 by decide)).dvd_of_dvd_mul_right hdvd

/-- The mean of a sum that three does not divide is strictly nearer than every other value (R122). -/
theorem mean_three_uniquely_nearest {sum : Nat} (hsum : sum < 2 ^ 53) (hndvd : ¬ 3 ∣ sum) {b : Binary64}
    (hb : binary64Finite b = true) (hne : b ≠ mean sum 3) :
    Claims.distance (mean sum 3) sum 3 < Claims.distance b sum 3 := by
  have hn := lt_mul_two_pow_1023_of_lt_two_pow_53 three_pos hsum
  refine lt_of_le_of_ne (rnd64_nearest three_pos hn hb hne).1 fun htie => hndvd (three_dvd_of_tie ?_ htie)
  exact fun hunits => hne (binary64Units_inj hb (rnd64_units three_pos hn).1 hunits.symm)

/-! ## The settled statements -/

/-- Settles O29: the answer itself is as near as itself, and no other finite value is nearer. -/
theorem roundingIsNearestTiesToEven : Obligations.RoundingIsNearestTiesToEven := by
  intro num den hd hn
  refine ⟨(rnd64_units hd hn).1, fun b hb => ?_⟩
  by_cases hne : b = rnd64 num den
  · subst hne
    exact ⟨le_rfl, fun _ hself => absurd rfl hself⟩
  · obtain ⟨hle, htie⟩ := rnd64_nearest hd hn hb hne
    exact ⟨hle, fun h _ => htie h⟩

/-- Settles O30: a natural below 2^53 is its own significand at the scale of one. -/
theorem naturalsBelow53BitsAreExact : Obligations.NaturalsBelow53BitsAreExact := by
  intro v hv
  have hn := lt_mul_two_pow_1023_of_lt_two_pow_53 Nat.one_pos hv
  exact ⟨(rnd64_units Nat.one_pos hn).1, rnd64_units_of_significand Nat.one_pos hn hv (Nat.mul_one _).symm⟩

end Sys2Proof.Machine
end

section
/-!
PROOFS. The neighbours at the edge of the frame (42_neighbor_averaging_pipeline R110, R113, R119, R124): which offsets
survive depends on which of the four sides the pixel touches, and on its role, alone.
-/
namespace Sys2Proof.Machine

/-! ## The surviving offsets by the sides a pixel touches -/

/-- An offset to one of the eight neighbours that leaves the frame over none of these sides. -/
def staysInside (top bottom left right : Bool) (o : Offset) : Bool :=
  !(top && decide (o.dr < 0)) && !(bottom && decide (0 < o.dr)) &&
    (!(left && decide (o.dc < 0)) && !(right && decide (0 < o.dc)))

variable {ny nx r c : Nat} {ro : Role} {k : Channel}

/-- Inside the frame, one step leaves it only over a side the pixel touches. -/
theorem inBounds_eq_staysInside (hr : r < ny) (hc : c < nx) {o : Offset}
    (ho : (-1 ≤ o.dr ∧ o.dr ≤ 1) ∧ (-1 ≤ o.dc ∧ o.dc ≤ 1)) :
    inBounds ny nx (r + o.dr) (c + o.dc) =
      staysInside (decide (r = 0)) (decide (r + 1 = ny)) (decide (c = 0)) (decide (c + 1 = nx)) o := by
  rw [Bool.eq_iff_iff, inBounds_iff]
  simp only [staysInside, Bool.and_eq_true, Bool.not_eq_true', Bool.and_eq_false_iff, decide_eq_false_iff_not]
  omega

/-- So the offsets that survive (R113) are those that leave over none of the touched sides. -/
theorem surviving_eq_filter (hr : r < ny) (hc : c < nx) (k : Channel) :
    surviving ny nx r c k = (template (role r c) k).filter
      (staysInside (decide (r = 0)) (decide (r + 1 = ny)) (decide (c = 0)) (decide (c + 1 = nx))) :=
  List.filter_congr fun _ ho => inBounds_eq_staysInside hr hc (template_offsets _ ho)

/-! ## The four border segments (R124) -/

theorem surviving_top (hny : 1 < ny) (hc0 : 0 < c) (hc : c < nx - 1) (hrole : role 0 c = ro) (k : Channel) :
    surviving ny nx 0 c k = (template ro k).filter (staysInside true false false false) := by
  rw [surviving_eq_filter (by omega) (by omega), hrole, decide_eq_true rfl, decide_eq_false (by omega),
    decide_eq_false (by omega), decide_eq_false (by omega)]

theorem surviving_bottom (hny : 1 < ny) (hc0 : 0 < c) (hc : c < nx - 1) (hrole : role (ny - 1) c = ro) (k : Channel) :
    surviving ny nx (ny - 1) c k = (template ro k).filter (staysInside false true false false) := by
  rw [surviving_eq_filter (by omega) (by omega), hrole, decide_eq_false (by omega), decide_eq_true (by omega),
    decide_eq_false (by omega), decide_eq_false (by omega)]

theorem surviving_left (hnx : 1 < nx) (hr0 : 0 < r) (hr : r < ny - 1) (hrole : role r 0 = ro) (k : Channel) :
    surviving ny nx r 0 k = (template ro k).filter (staysInside false false true false) := by
  rw [surviving_eq_filter (by omega) (by omega), hrole, decide_eq_false (by omega), decide_eq_false (by omega),
    decide_eq_true rfl, decide_eq_false (by omega)]

theorem surviving_right (hnx : 1 < nx) (hr0 : 0 < r) (hr : r < ny - 1) (hrole : role r (nx - 1) = ro) (k : Channel) :
    surviving ny nx r (nx - 1) k = (template ro k).filter (staysInside false false false true) := by
  rw [surviving_eq_filter (by omega) (by omega), hrole, decide_eq_false (by omega), decide_eq_false (by omega),
    decide_eq_false (by omega), decide_eq_true (by omega)]

/-! ## Roles by parity (R92) -/

theorem role_even_even (hr : r % 2 = 0) (hc : c % 2 = 0) : role r c = .g1 := by simp [role, hr, hc, roleTable]
theorem role_even_odd (hr : r % 2 = 0) (hc : c % 2 = 1) : role r c = .r := by simp [role, hr, hc, roleTable]
theorem role_odd_even (hr : r % 2 = 1) (hc : c % 2 = 0) : role r c = .b := by simp [role, hr, hc, roleTable]
theorem role_odd_odd (hr : r % 2 = 1) (hc : c % 2 = 1) : role r c = .g2 := by simp [role, hr, hc, roleTable]

/-! ## How many offsets survive -/

theorem classOf_border_iff :
    classOf ny nx r c = .border ↔ ((r = 0 ∨ r + 1 = ny) ↔ ¬ (c = 0 ∨ c + 1 = nx)) := by
  unfold classOf
  split_ifs <;> simp only [true_iff, false_iff] <;> omega

/-- A template loses a term at every side a pixel touches, or has three at most (R112, R115). -/
theorem length_filter_le_three {top bottom left right : Bool} (h : (top || bottom || left || right) = true) :
    ((template ro k).filter (staysInside top bottom left right)).length ≤ 3 := by
  revert top bottom left right
  cases ro <;> cases k <;> decide

/-- Three terms are left of the four orthogonal neighbours when a pixel touches one side, and of no other template
(R122). -/
theorem of_length_filter_eq_three {top bottom left right : Bool}
    (h : ((template ro k).filter (staysInside top bottom left right)).length = 3) :
    k = .g ∧ (ro = .r ∨ ro = .b) ∧ ((top || bottom) = true ↔ ¬ (left || right) = true) := by
  revert top bottom left right
  cases ro <;> cases k <;> decide

theorem surviving_length_le_three (hr : r < ny) (hc : c < nx) (hcls : classOf ny nx r c = .border) (k : Channel) :
    (surviving ny nx r c k).length ≤ 3 := by
  rw [surviving_eq_filter hr hc]
  refine length_filter_le_three ?_
  rw [classOf_border_iff] at hcls
  simp only [Bool.or_eq_true, decide_eq_true_eq]
  omega

theorem of_surviving_length_eq_three (hr : r < ny) (hc : c < nx) (h : (surviving ny nx r c k).length = 3) :
    k = .g ∧ classOf ny nx r c = .border ∧ (role r c = .r ∨ role r c = .b) := by
  rw [surviving_eq_filter hr hc] at h
  obtain ⟨hk, hrole, hsides⟩ := of_length_filter_eq_three h
  refine ⟨hk, classOf_border_iff.mpr ?_, hrole⟩
  simpa only [Bool.or_eq_true, decide_eq_true_eq] using hsides

/-- A channel a role does not sample has a template (R112). -/
theorem template_ne_nil (hk : k ≠ native ro) : template ro k ≠ [] := by
  revert hk
  cases ro <;> cases k <;> decide

/-- The source a corner parameter picks is one of the two candidates (R116). -/
theorem cornerSrc_eq_or (p : Params) (ro : Role) (k : Channel) :
    cornerSrc p ro k = (cornerSources ro k).1 ∨ cornerSrc p ro k = (cornerSources ro k).2 := by
  unfold cornerSrc
  cases cornerChoice p ro
  · exact .inl rfl
  · exact .inr rfl

/-! ## The settled statements -/

/-- Settles O25: a border pixel outside the corners touches one side, and its role is given by the parities of its
position. -/
theorem borderTermTable : Obligations.BorderTermTable := by
  intro ny nx hny hnx hny4 hnx4
  have hbottom : (ny - 1) % 2 = 1 := by omega
  have hright : (nx - 1) % 2 = 1 := by omega
  refine ⟨fun c hc0 hc heven => ?_, fun c hc0 hc hodd => ?_, fun r hr0 hr heven => ?_, fun r hr0 hr hodd => ?_⟩
  · have hg1 := role_even_even (Nat.zero_mod 2) heven
    have hb := role_odd_even hbottom heven
    have top := surviving_top (by omega : 1 < ny) hc0 hc hg1
    have bottom := surviving_bottom (by omega) hc0 hc hb
    exact ⟨hg1, top .r, top .b, hb, bottom .g, bottom .r⟩
  · have hr := role_even_odd (Nat.zero_mod 2) hodd
    have hg2 := role_odd_odd hbottom hodd
    have top := surviving_top (by omega : 1 < ny) hc0 hc hr
    have bottom := surviving_bottom (by omega) hc0 hc hg2
    exact ⟨hr, top .g, top .b, hg2, bottom .r, bottom .b⟩
  · have hg1 := role_even_even heven (Nat.zero_mod 2)
    have hred := role_even_odd heven hright
    have left := surviving_left (by omega : 1 < nx) hr0 hr hg1
    have right := surviving_right (by omega) hr0 hr hred
    exact ⟨hg1, left .r, left .b, hred, right .g, right .b⟩
  · have hb := role_odd_even hodd (Nat.zero_mod 2)
    have hg2 := role_odd_odd hodd hright
    have left := surviving_left (by omega : 1 < nx) hr0 hr hb
    have right := surviving_right (by omega) hr0 hr hg2
    exact ⟨hb, left .g, left .r, hg2, right .r, right .b⟩

/-- Settles O26: the survivors are inside by their definition, an interior pixel has all its neighbours, and the corner
sources stay in the pixel's own tile. -/
theorem noEmptyAverageAndNoReadOutside : Obligations.NoEmptyAverageAndNoReadOutside := by
  intro ny nx r c k hny hnx hny4 hnx4 hr hc hk
  refine ⟨fun o ho => (mem_surviving.mp ho).2, fun _ => surviving_ne_nil (by omega) (by omega) hr hc hk,
    fun hcls => ⟨surviving_interior hr hc hcls, template_ne_nil hk⟩, fun _ p => ?_⟩
  exact cornerSources_inBounds hny hnx hr hc (cornerSrc_eq_or p _ _)

/-- Settles O31: sums of one, two or four samples give whole quarters, a sum of three ties with no value, and three
terms are the orthogonal neighbours less the one across the side. -/
theorem meansAreExactOrUniquelyNearest : Obligations.MeansAreExactOrUniquelyNearest := by
  refine ⟨fun sum n hsum hn => mean_units_of_dvd_four ?_ (by omega),
    fun sum hsum hmod => mean_three_units (by omega) (Nat.dvd_of_mod_eq_zero hmod),
    fun sum b hsum hmod hb hne => mean_three_uniquely_nearest (by omega) (by omega) hb hne,
    fun ny nx r c k _ _ _ _ hr hc => of_surviving_length_eq_three hr hc⟩
  rcases hn with rfl | rfl | rfl <;> decide

end Sys2Proof.Machine
end

section
/-!
PROOFS. Interp by position class (42_neighbor_averaging_pipeline R111 to R118), and the FULL image as the elements
Interp gives (43_full_resolution_decoder R130, R131).
-/
namespace Sys2Proof.Machine

variable {p : Params} {f : Frame} {r c : Nat} {ro : Role} {k : Channel} {dup : Bool}

/-! ## The branches of Interp (R117) -/

theorem interp_native : interp p f r c (native (role r c)) dup = (f.sample r c).map f64 := if_pos rfl

theorem interp_corner (hk : k ≠ native (role r c)) (hcls : classOf f.ny f.nx r c = .corner) :
    interp p f r c k dup = (cornerCopy p f r c k).map f64 := by
  simp only [interp, if_neg hk, hcls]

theorem interp_border (hk : k ≠ native (role r c)) (hcls : classOf f.ny f.nx r c = .border) :
    interp p f r c k dup = meanOver f r c (surviving f.ny f.nx r c k) := by
  simp only [interp, if_neg hk, hcls]

theorem interp_interior (hk : k ≠ native (role r c)) (hcls : classOf f.ny f.nx r c = .interior)
    (hdup : ¬ (dup = true ∧ template (role r c) k = diagonals)) :
    interp p f r c k dup = meanOver f r c (surviving f.ny f.nx r c k) := by
  simp only [interp, if_neg hk, hcls, if_neg hdup]

theorem interp_dup_diagonal (hk : k ≠ native (role r c)) (hcls : classOf f.ny f.nx r c = .interior)
    (hdiag : template (role r c) k = diagonals) : interp p f r c k true = dupDiagonal p f r c k := by
  simp only [interp, if_neg hk, hcls, hdiag, and_self, if_true]

/-! ## What a corner copies (R116) -/

theorem cornerCopy_eq_neighbour (hf : f.Complete) (hshape : Claims.FullShape f) (hr : r < f.ny) (hc : c < f.nx)
    (k : Channel) : cornerCopy p f r c k = f.neighbour r c (cornerSrc p (role r c) k) := by
  obtain ⟨hny, hnx, -, -⟩ := hshape
  obtain ⟨v, hv⟩ := Option.isSome_iff_exists.mp (cornerCopy_isSome (p := p) hf hny hnx hr hc k)
  rw [hv, cornerCopy_eq_some hv]

theorem cornerSrc_of_vertical (h : cornerChoice p ro = .vertical) : cornerSrc p ro k = (cornerSources ro k).1 := by
  rw [cornerSrc, h, pickCorner]

theorem cornerSrc_of_horizontal (h : cornerChoice p ro = .horizontal) :
    cornerSrc p ro k = (cornerSources ro k).2 := by
  rw [cornerSrc, h, pickCorner]

/-- Where the table has one row, both parameters name the same source. -/
theorem cornerSrc_of_one_row (h : (cornerSources ro k).2 = (cornerSources ro k).1) :
    cornerSrc p ro k = (cornerSources ro k).1 :=
  (cornerSrc_eq_or p ro k).elim id fun hsrc => hsrc.trans h

/-! ## The diagonals under DUP = 1 (R118) -/

/-- The four diagonal neighbours of a pixel. -/
structure Frame.Diagonals (f : Frame) (r c nw ne sw se : Nat) : Prop where
  nw_eq : f.neighbour r c ⟨-1, -1⟩ = some nw
  ne_eq : f.neighbour r c ⟨-1, 1⟩ = some ne
  sw_eq : f.neighbour r c ⟨1, -1⟩ = some sw
  se_eq : f.neighbour r c ⟨1, 1⟩ = some se

theorem Frame.exists_diagonals (hf : f.Complete) (hr : r < f.ny) (hc : c < f.nx)
    (hcls : classOf f.ny f.nx r c = .interior) : ∃ nw ne sw se, f.Diagonals r c nw ne sw se := by
  have hsome := dupDiagonal_isSome (p := Config.params) hf hr hc hcls .r
  unfold dupDiagonal at hsome
  split at hsome
  next nw ne sw se hnw hne hsw hse => exact ⟨nw, ne, sw, se, hnw, hne, hsw, hse⟩
  next => cases hsome

variable {nw ne sw se : Nat}

theorem Frame.Diagonals.dupDiagonal_of_dupCase (h : f.Diagonals r c nw ne sw se)
    (hcase : (role r c, k) = dupCase p.dupTarget) : dupDiagonal p f r c k = some (dupMean p nw ne sw se) := by
  simp only [dupDiagonal, h.nw_eq, h.ne_eq, h.sw_eq, h.se_eq, if_pos hcase]

/-- Outside the DupCase the mean is that of the four distinct diagonals (R118). -/
theorem Frame.Diagonals.dupDiagonal_of_not_dupCase (h : f.Diagonals r c nw ne sw se)
    (hcase : (role r c, k) ≠ dupCase p.dupTarget) : dupDiagonal p f r c k = meanOver f r c diagonals := by
  simp only [dupDiagonal, h.nw_eq, h.ne_eq, h.sw_eq, h.se_eq, if_neg hcase]
  refine (meanOver_eq_some.mpr ⟨[nw, ne, sw, se], ?_, ?_⟩).symm
  · simp [diagonals, h.nw_eq, h.ne_eq, h.sw_eq, h.se_eq]
  · simp [Nat.add_assoc]

/-- The two samples DUP_PAIR picks are those at its two offsets. -/
theorem Frame.Diagonals.pairOffsets_eq (h : f.Diagonals r c nw ne sw se) (pair : DupPair) :
    f.neighbour r c (Claims.pairOffsets pair).1 = some (pickPair pair nw ne sw se).1 ∧
      f.neighbour r c (Claims.pairOffsets pair).2 = some (pickPair pair nw ne sw se).2 := by
  cases pair <;> simp [Claims.pairOffsets, pickPair, h.nw_eq, h.ne_eq, h.sw_eq, h.se_eq]

/-- The DupCase is a channel averaged over the four diagonals (R112, R118). -/
theorem of_eq_dupCase {target : DupTarget} (h : (ro, k) = dupCase target) :
    k ≠ native ro ∧ template ro k = diagonals := by
  cases target <;> cases h <;> decide

/-- The mean of a duplicated pair is the mean of the pair (R118). -/
theorem mean_duplicated (a b : Nat) : mean (a + b + a + b) 4 = rnd64 (a + b) 2 := by
  rw [mean, show a + b + a + b = 2 * (a + b) by ring]
  exact rnd64_scale (den := 2) two_pos

/-- DUP = 1 changes nothing but the DupCase at interior pixels (R118). -/
theorem interp_dup_eq (hf : f.Complete) (hr : r < f.ny) (hc : c < f.nx)
    (hcase : ¬ (classOf f.ny f.nx r c = .interior ∧ (role r c, k) = dupCase p.dupTarget)) :
    interp p f r c k true = interp p f r c k false := by
  by_cases hk : k = native (role r c)
  · rw [hk, interp_native, interp_native]
  cases hcls : classOf f.ny f.nx r c with
  | corner => rw [interp_corner hk hcls, interp_corner hk hcls]
  | border => rw [interp_border hk hcls, interp_border hk hcls]
  | interior =>
    rw [interp_interior (dup := false) hk hcls (by simp)]
    by_cases hdiag : template (role r c) k = diagonals
    · obtain ⟨nw, ne, sw, se, h⟩ := Frame.exists_diagonals hf hr hc hcls
      rw [interp_dup_diagonal hk hcls hdiag, h.dupDiagonal_of_not_dupCase fun heq => hcase ⟨hcls, heq⟩,
        surviving_interior hr hc hcls, hdiag]
    · exact interp_interior hk hcls fun h => hdiag h.2

/-! ## The elements of the FULL image -/

/-- The position an offset leads to. -/
def Offset.position (r c : Nat) (o : Offset) : Int × Int := ((r : Int) + o.dr, (c : Int) + o.dc)

/-- A mean over offsets is the mean over the positions they lead to. -/
theorem map_meanOver_eq_averaged (os : List Offset) :
    (meanOver f r c os).map Element.f64 = Claims.averaged f (os.map (Offset.position r c)) := by
  simp only [meanOver, Claims.averaged, Claims.samplesAt, Option.map_map, List.map_map]
  rfl

theorem fullElement_native :
    fullElement p f dup r c (native (role r c)) = (f.sample r c).map fun v => .f64 (f64 v) := by
  rw [fullElement, interp_native, Option.map_map]
  rfl

theorem fullElement_corner (hf : f.Complete) (hshape : Claims.FullShape f) (hr : r < f.ny) (hc : c < f.nx)
    (hcls : classOf f.ny f.nx r c = .corner) (hrole : role r c = ro) (hk : k ≠ native ro) :
    fullElement p f dup r c k =
      Claims.copied f (r + (cornerSrc p ro k).dr) (c + (cornerSrc p ro k).dc) := by
  subst hrole
  rw [fullElement, interp_corner hk hcls, cornerCopy_eq_neighbour hf hshape hr hc, Option.map_map]
  rfl

theorem fullElement_border (hk : k ≠ native (role r c)) (hcls : classOf f.ny f.nx r c = .border) :
    fullElement p f dup r c k =
      Claims.averaged f ((surviving f.ny f.nx r c k).map (Offset.position r c)) := by
  rw [fullElement, interp_border hk hcls, map_meanOver_eq_averaged]

/-- Under DUP = 0 an interior pixel averages its whole template (R114). -/
theorem fullElement_interior (hr : r < f.ny) (hc : c < f.nx) (hcls : classOf f.ny f.nx r c = .interior)
    (hrole : role r c = ro) (hk : k ≠ native ro) :
    fullElement p f false r c k = Claims.averaged f ((template ro k).map (Offset.position r c)) := by
  subst hrole
  rw [fullElement, interp_interior hk hcls (by simp), surviving_interior hr hc hcls, map_meanOver_eq_averaged]

/-! ## The image of a full decode, and how a command ends -/

variable {s : State}

theorem decoderOf_fullCommand (dup : Bool) : decoderOf (Claims.fullCommand dup) = execFull Config.params dup := by
  cases dup <;> rfl

/-- On an accepted complete frame both full decodes complete with the image of Interp's elements (R130, R131). -/
theorem exists_fullImage (hframe : s.mem.frame = some f) (hf : f.Complete) (hshape : Claims.FullShape f)
    (dup : Bool) :
    ∃ img, Claims.FullImage s f dup img ∧
      ∀ r c k, r < f.ny → c < f.nx → img.element r c k.index = fullElement Config.params f dup r c k := by
  obtain ⟨hny, hnx, hny4, hnx4⟩ := hshape
  have hgrid := checkGridFull_eq_none.mpr ⟨⟨hny, hnx⟩, hny4, hnx4⟩
  have helem (r c : Nat) (k : Channel) (hr : r < f.ny) (hc : c < f.nx) :
      (fullElement Config.params f dup r c k).isSome = true := by
    simpa [fullElement] using interp_isSome hf hny hnx hr hc k dup
  obtain ⟨img, himg⟩ := buildImage_isSome (kind := .full) helem
  obtain ⟨hkind, hrows, hcols, hlen, hel⟩ := buildImage_eq_some himg
  refine ⟨img, ⟨(exec_eq_completed hframe).mpr ?_, hkind, hrows, hcols, hlen⟩, hel⟩
  rw [decoderOf_fullCommand]
  exact execFull_eq_ok.mpr ⟨hgrid, himg⟩

theorem checkGridSub_eq_some {ny nx : Nat} {e : CommandError} (h : checkGridSub ny nx = some e) :
    e = .invalidGrid := by
  unfold checkGridSub at h
  split at h <;> cases h
  rfl

theorem checkGridFull_eq_some {ny nx : Nat} {e : CommandError} (h : checkGridFull ny nx = some e) :
    e = .invalidGrid := by
  unfold checkGridFull at h
  split_ifs at h <;> cases h <;> rfl

theorem execSub_eq_error {e : CommandError} (h : execSub p f = some (.error e)) : e = .invalidGrid := by
  unfold execSub at h
  split at h
  next hgrid =>
    cases h
    exact checkGridSub_eq_some hgrid
  next => simp at h

theorem execFull_eq_error {e : CommandError} (h : execFull p dup f = some (.error e)) : e = .invalidGrid := by
  unfold execFull at h
  split at h
  next hgrid =>
    cases h
    exact checkGridFull_eq_some hgrid
  next => simp at h

/-- The only error of a decoder is that of the grid (R174). -/
theorem decoderOf_eq_error {i : Instr} {e : CommandError} (h : decoderOf i f = some (.error e)) :
    e = .invalidGrid := by
  cases i with
  | decodeSubsampled => exact execSub_eq_error h
  | decodeFull => exact execFull_eq_error h
  | decodeFullDup => exact execFull_eq_error h

end Sys2Proof.Machine
end

section
/-!
PROOFS. The settled statements about the images of the pipeline (42_neighbor_averaging_pipeline).
-/
namespace Sys2Proof.Machine

/-- Settles O12: every decoder has a result on a complete frame, an image or the error of the grid. -/
theorem everyCommandCompletes : Obligations.EveryCommandCompletes := by
  intro i s f hframe hf
  obtain ⟨result, hdec⟩ := decoderOf_isSome i hf
  cases result with
  | ok img => exact .inl ⟨img, (exec_eq_completed hframe).mpr hdec⟩
  | error e =>
    obtain rfl := decoderOf_eq_error hdec
    exact .inr (exec_of_invalidGrid hframe hdec)

/-- Settles O21: the native channel is copied, and a complete frame has the sample. -/
theorem nativeChannelIsTheSample : Obligations.NativeChannelIsTheSample := by
  intro dup s f hframe hf hshape
  obtain ⟨img, himg, helem⟩ := exists_fullImage hframe hf hshape dup
  refine ⟨img, himg, fun r c hr hc => ?_⟩
  have hin : inBounds f.ny f.nx r c = true := inBounds_iff.mpr (by omega)
  obtain ⟨v, hv⟩ := Option.isSome_iff_exists.mp (Frame.sample_isSome hf hin)
  exact ⟨v, hv, by rw [helem r c _ hr hc, fullElement_native, hv, Option.map_some]⟩

/-- Settles O22: the four corners have the four roles, and a parameter chooses between two sources for green alone. -/
theorem cornersCopyOneNeighbour : Obligations.CornersCopyOneNeighbour := by
  intro dup s f hframe hf hshape
  obtain ⟨img, himg, helem⟩ := exists_fullImage hframe hf hshape dup
  obtain ⟨hny, hnx, hny4, hnx4⟩ := id hshape
  have corner {r c : Nat} {ro : Role} (k : Channel) (dr dc : Int) {r' c' : Int} (hr : r = 0 ∨ r + 1 = f.ny)
      (hc : c = 0 ∨ c + 1 = f.nx) (hrole : role r c = ro) (hk : k ≠ native ro)
      (hsrc : cornerSrc Config.params ro k = ⟨dr, dc⟩) (hr' : r + dr = r') (hc' : c + dc = c') :
      img.element r c k.index = Claims.copied f r' c' := by
    rw [helem r c k (by omega) (by omega),
      fullElement_corner hf hshape (by omega) (by omega) (classOf_corner_iff.mpr ⟨hr, hc⟩) hrole hk, hsrc]
    exact congrArg₂ (Claims.copied f) hr' hc'
  have hbottom : f.ny - 1 + 1 = f.ny := by omega
  have hright : f.nx - 1 + 1 = f.nx := by omega
  have hr : role 0 (f.nx - 1) = .r := role_even_odd rfl (by omega)
  have hb : role (f.ny - 1) 0 = .b := role_odd_even (by omega) rfl
  have hg2 : role (f.ny - 1) (f.nx - 1) = .g2 := role_odd_odd (by omega) (by omega)
  refine ⟨img, himg, ?_, ?_, fun hv => ?_, fun hh => ?_, ?_, fun hv => ?_, fun hh => ?_, ?_, ?_, ?_⟩
  · exact corner .r 0 1 (.inl rfl) (.inl rfl) rfl (by decide) (cornerSrc_of_one_row rfl) rfl rfl
  · exact corner .b 1 0 (.inl rfl) (.inl rfl) rfl (by decide) (cornerSrc_of_one_row rfl) rfl rfl
  · exact corner .g 1 0 (.inl rfl) (.inr hright) hr (by decide) (cornerSrc_of_vertical hv) rfl (by omega)
  · exact corner .g 0 (-1) (.inl rfl) (.inr hright) hr (by decide) (cornerSrc_of_horizontal hh) rfl (by omega)
  · exact corner .b 1 (-1) (.inl rfl) (.inr hright) hr (by decide) (cornerSrc_of_one_row rfl) rfl (by omega)
  · exact corner .g (-1) 0 (.inr hbottom) (.inl rfl) hb (by decide) (cornerSrc_of_vertical hv) (by omega) rfl
  · exact corner .g 0 1 (.inr hbottom) (.inl rfl) hb (by decide) (cornerSrc_of_horizontal hh) (by omega) rfl
  · exact corner .r (-1) 1 (.inr hbottom) (.inl rfl) hb (by decide) (cornerSrc_of_one_row rfl) (by omega) rfl
  · exact corner .r (-1) 0 (.inr hbottom) (.inr hright) hg2 (by decide) (cornerSrc_of_one_row rfl)
      (by omega) (by omega)
  · exact corner .b 0 (-1) (.inr hbottom) (.inr hright) hg2 (by decide) (cornerSrc_of_one_row rfl)
      (by omega) (by omega)

/-- Settles O23: an interior pixel keeps its whole template, whose offsets lead to the positions named. -/
theorem interiorMeansByRole : Obligations.InteriorMeansByRole := by
  intro s f hframe hf hshape
  obtain ⟨img, himg, helem⟩ := exists_fullImage hframe hf hshape false
  refine ⟨img, himg, fun r c hr1 hr2 hc1 hc2 => ?_⟩
  have hcls : classOf f.ny f.nx r c = .interior := classOf_interior_iff.mpr (by omega)
  have average {ro : Role} (hrole : role r c = ro) (k : Channel) (hk : k ≠ native ro) :
      img.element r c k.index = Claims.averaged f ((template ro k).map (Offset.position r c)) := by
    rw [helem r c k (by omega) (by omega), fullElement_interior (by omega) (by omega) hcls hrole hk]
  refine ⟨fun h => ⟨average h .r ?_, average h .b ?_⟩, fun h => ⟨average h .r ?_, average h .b ?_⟩,
    fun h => ⟨average h .g ?_, average h .b ?_⟩, fun h => ⟨average h .g ?_, average h .r ?_⟩⟩
  all_goals decide

/-- Settles O24: the in-bounds terms are the surviving offsets, and a side takes at least one of four. -/
theorem borderMeansOfInBoundsTerms : Obligations.BorderMeansOfInBoundsTerms := by
  intro dup s f hframe hf hshape
  obtain ⟨img, himg, helem⟩ := exists_fullImage hframe hf hshape dup
  refine ⟨img, himg, fun r c k hr hc hcls hk => ?_⟩
  have hterms : ((template (role r c) k).filter fun o =>
      decide (0 ≤ (r : Int) + o.dr ∧ (r : Int) + o.dr < f.ny ∧ 0 ≤ (c : Int) + o.dc ∧ (c : Int) + o.dc < f.nx)) =
      surviving f.ny f.nx r c k :=
    List.filter_congr fun o _ => by simp [inBounds, Bool.and_assoc]
  simp only [hterms]
  obtain ⟨-, -, hny4, hnx4⟩ := hshape
  refine ⟨List.length_pos_of_ne_nil (surviving_ne_nil (by omega) (by omega) hr hc hk),
    surviving_length_le_three hr hc hcls k, ?_⟩
  rw [helem r c k hr hc, fullElement_border hk hcls]
  rfl

/-- Settles O27: the DupCase averages the pair DUP_PAIR picks out of the diagonals, and Interp is otherwise the same. -/
theorem dupChangesOnlyTheDupCase : Obligations.DupChangesOnlyTheDupCase := by
  intro s f hframe hf hshape
  obtain ⟨img, himg, helem⟩ := exists_fullImage hframe hf hshape false
  obtain ⟨dupImg, hdupImg, hdupElem⟩ := exists_fullImage hframe hf hshape true
  refine ⟨img, dupImg, himg, hdupImg, fun r c k hr hc => ⟨fun ⟨hcls, hcase⟩ => ?_, fun hcase => ?_⟩⟩
  · obtain ⟨nw, ne, sw, se, hdiag⟩ := Frame.exists_diagonals hf hr hc hcls
    obtain ⟨ha, hb⟩ := hdiag.pairOffsets_eq Config.params.dupPair
    obtain ⟨hk, htemplate⟩ := of_eq_dupCase hcase
    refine ⟨_, _, ha, hb, ?_, mean_duplicated _ _⟩
    rw [hdupElem r c k hr hc, fullElement, interp_dup_diagonal hk hcls htemplate, hdiag.dupDiagonal_of_dupCase hcase]
    rfl
  · rw [hdupElem r c k hr hc, helem r c k hr hc, fullElement, fullElement, interp_dup_eq hf hr hc hcase]

end Sys2Proof.Machine
end

section
/-!
PROOFS. The full-resolution decoder (43_full_resolution_decoder R130, R131, R133): Interp answers what the pseudocode of
R117 writes, the shape check, and a frame of one value.
-/
namespace Sys2Proof.Machine

variable {p : Params} {f : Frame} {r c : Nat} {k : Channel} {dup : Bool}

/-! ## The samples the pseudocode of R117 reads -/

/-- The sample an offset leads to, as the pseudocode reads it. -/
def Frame.valueAt (f : Frame) (r c : Nat) (o : Offset) : Nat := Claims.sampleValue f (r + o.dr) (c + o.dc)

theorem Frame.valueAt_of_neighbour {o : Offset} {v : Nat} (h : f.neighbour r c o = some v) : f.valueAt r c o = v :=
  congrArg (Option.getD · 0) h

theorem Frame.neighbour_eq_valueAt (hf : f.Complete) {o : Offset}
    (hin : inBounds f.ny f.nx (r + o.dr) (c + o.dc) = true) : f.neighbour r c o = some (f.valueAt r c o) := by
  obtain ⟨v, hv⟩ := Option.isSome_iff_exists.mp (Frame.neighbour_isSome hf hin)
  rw [hv, Frame.valueAt_of_neighbour hv]

/-- A mean over neighbours inside a complete frame is the mean of the values read there (R114, R115). -/
theorem meanOver_eq_mean_valueAt (hf : f.Complete) {os : List Offset}
    (hin : ∀ o ∈ os, inBounds f.ny f.nx (r + o.dr) (c + o.dc) = true) :
    meanOver f r c os = some (mean (os.map (f.valueAt r c)).sum os.length) := by
  refine meanOver_eq_some.mpr ⟨os.map (f.valueAt r c), ?_, by rw [List.length_map]⟩
  rw [List.map_map]
  exact List.map_congr_left fun o ho => Frame.neighbour_eq_valueAt hf (hin o ho)

/-! ## The branches of the pseudocode -/

theorem interpText_native :
    Claims.interpText p f r c (native (role r c)) dup = f64 (Claims.sampleValue f r c) := if_pos rfl

theorem interpText_corner (hk : k ≠ native (role r c)) (hcls : classOf f.ny f.nx r c = .corner) :
    Claims.interpText p f r c k dup = f64 (f.valueAt r c (cornerSrc p (role r c) k)) := by
  rw [Claims.interpText, if_neg hk, if_pos hcls]
  rfl

theorem interpText_dupCase (hcls : classOf f.ny f.nx r c = .interior) (hcase : (role r c, k) = dupCase p.dupTarget) :
    Claims.interpText p f r c k true =
      mean (f.valueAt r c (Claims.pairOffsets p.dupPair).1 + f.valueAt r c (Claims.pairOffsets p.dupPair).2 +
        f.valueAt r c (Claims.pairOffsets p.dupPair).1 + f.valueAt r c (Claims.pairOffsets p.dupPair).2) 4 := by
  rw [Claims.interpText, if_neg (of_eq_dupCase hcase).1, if_neg (by simp [hcls]), if_pos ⟨rfl, hcls, hcase⟩]
  rfl

theorem interpText_average (hk : k ≠ native (role r c)) (hcls : classOf f.ny f.nx r c ≠ .corner)
    (hcase : ¬ (dup = true ∧ classOf f.ny f.nx r c = .interior ∧ (role r c, k) = dupCase p.dupTarget)) :
    Claims.interpText p f r c k dup =
      mean ((surviving f.ny f.nx r c k).map (f.valueAt r c)).sum (surviving f.ny f.nx r c k).length := by
  rw [Claims.interpText, if_neg hk, if_neg hcls, if_neg hcase]
  rfl

/-! ## Interp is the pseudocode (R117) -/

/-- Under DUP = 0 a pixel outside the corners averages its surviving neighbours (R114, R115). -/
theorem interp_average (hk : k ≠ native (role r c)) (hcls : classOf f.ny f.nx r c ≠ .corner) :
    interp p f r c k false = meanOver f r c (surviving f.ny f.nx r c k) := by
  cases h : classOf f.ny f.nx r c with
  | corner => exact absurd h hcls
  | border => exact interp_border hk h
  | interior => exact interp_interior hk h (by simp)

/-- In the DupCase the model and the pseudocode duplicate the same two diagonals (R118). -/
theorem interp_eq_interpText_of_dupCase (hf : f.Complete) (hr : r < f.ny) (hc : c < f.nx)
    (hcls : classOf f.ny f.nx r c = .interior) (hcase : (role r c, k) = dupCase p.dupTarget) :
    interp p f r c k true = some (Claims.interpText p f r c k true) := by
  obtain ⟨nw, ne, sw, se, hdiag⟩ := Frame.exists_diagonals hf hr hc hcls
  obtain ⟨ha, hb⟩ := hdiag.pairOffsets_eq p.dupPair
  obtain ⟨hk, htemplate⟩ := of_eq_dupCase hcase
  rw [interp_dup_diagonal hk hcls htemplate, hdiag.dupDiagonal_of_dupCase hcase, interpText_dupCase hcls hcase,
    Frame.valueAt_of_neighbour ha, Frame.valueAt_of_neighbour hb]
  rfl

/-- On an accepted complete frame Interp answers at every pixel, with the value of the pseudocode. -/
theorem interp_eq_interpText (hf : f.Complete) (hshape : Claims.FullShape f) (hr : r < f.ny) (hc : c < f.nx)
    (k : Channel) (dup : Bool) : interp p f r c k dup = some (Claims.interpText p f r c k dup) := by
  by_cases hk : k = native (role r c)
  · have hin : inBounds f.ny f.nx r c = true := inBounds_iff.mpr (by omega)
    obtain ⟨v, hv⟩ := Option.isSome_iff_exists.mp (Frame.sample_isSome hf hin)
    rw [hk, interp_native, interpText_native, Claims.sampleValue, hv, Option.map_some, Option.getD_some]
  by_cases hcorner : classOf f.ny f.nx r c = .corner
  · obtain ⟨hny, hnx, -, -⟩ := id hshape
    have hin := cornerSources_inBounds hny hnx hr hc (cornerSrc_eq_or p (role r c) k)
    rw [interp_corner hk hcorner, cornerCopy_eq_neighbour hf hshape hr hc, Frame.neighbour_eq_valueAt hf hin,
      interpText_corner hk hcorner, Option.map_some]
  by_cases hcase : dup = true ∧ classOf f.ny f.nx r c = .interior ∧ (role r c, k) = dupCase p.dupTarget
  · obtain ⟨rfl, hcls, hcase⟩ := hcase
    exact interp_eq_interpText_of_dupCase hf hr hc hcls hcase
  · have hdup : interp p f r c k dup = interp p f r c k false := by
      cases dup with
      | false => rfl
      | true => exact interp_dup_eq hf hr hc fun h => hcase ⟨rfl, h⟩
    rw [hdup, interp_average hk hcorner, interpText_average hk hcorner hcase]
    exact meanOver_eq_mean_valueAt hf fun o ho => (mem_surviving.mp ho).2

/-! ## The full decodes (R130, R131) -/

/-- A shape other than the full decoder's is rejected (R95). -/
theorem execFull_of_not_fullShape (h : ¬ Claims.FullShape f) : execFull p dup f = some (.error .invalidGrid) := by
  have hgrid : checkGridFull f.ny f.nx ≠ none := fun hnone => h (and_assoc.mp (checkGridFull_eq_none.mp hnone))
  obtain ⟨e, he⟩ := Option.ne_none_iff_exists'.mp hgrid
  obtain rfl := checkGridFull_eq_some he
  simp only [execFull, he]

variable {s : State}

theorem exec_fullCommand_of_not_fullShape (hframe : s.mem.frame = some f) (h : ¬ Claims.FullShape f) (dup : Bool) :
    exec (Claims.fullCommand dup) s = .next (Claims.failed s 0x00000013) := by
  refine exec_of_invalidGrid hframe ?_
  rw [decoderOf_fullCommand, execFull_of_not_fullShape h]

/-- On an accepted complete frame both full decodes leave the image of the pseudocode's values. -/
theorem exists_fullImage_interpText (hframe : s.mem.frame = some f) (hf : f.Complete) (hshape : Claims.FullShape f)
    (dup : Bool) :
    ∃ img, Claims.FullImage s f dup img ∧ ∀ (r c : Nat) (k : Channel), r < f.ny → c < f.nx →
      img.element r c k.index = some (.f64 (Claims.interpText Config.params f r c k dup)) := by
  obtain ⟨img, himg, helem⟩ := exists_fullImage hframe hf hshape dup
  refine ⟨img, himg, fun r c k hr hc => ?_⟩
  rw [helem r c k hr hc, fullElement, interp_eq_interpText hf hshape hr hc, Option.map_some]

/-! ## A frame of one value -/

/-- The mean of any number of copies of one sample is that sample: rounding depends on the quotient alone (R121). -/
theorem Frame.IsMean.eq_f64_of_constant {v : Nat} (hconst : ∀ x ∈ f.samples, x = v) {b : Binary64}
    (h : f.IsMean b) : b = f64 v := by
  obtain ⟨vs, hne, -, hmem, rfl⟩ := h
  have hsum : vs.sum = vs.length * v := List.sum_eq_card_nsmul vs v fun x hx => hconst x (hmem x hx)
  calc mean vs.sum vs.length = rnd64 (vs.length * v) (vs.length * 1) := by rw [mean, hsum, Nat.mul_one]
    _ = f64 v := rnd64_scale (List.length_pos_of_ne_nil hne)

/-! ## The settled statements -/

/-- Settles O11: a command completes with its decoder's result, which is computed from the frame alone. -/
theorem resultDependsOnFrameOnly : Obligations.ResultDependsOnFrameOnly := by
  intro i s s' t hframe h
  rw [exec_eq_runDecoder] at h
  obtain ⟨f, result, hf, hdec, rfl⟩ := runDecoder_eq_next.mp h
  refine ⟨s'.complete result, ?_, ?_⟩
  · rw [exec_eq_runDecoder]
    exact runDecoder_eq_next.mpr ⟨f, result, hframe ▸ hf, hdec, rfl⟩
  · cases result <;> simp [State.complete, hframe]

/-- Settles O19: DECODE_FULL is the full decode with dup = false. -/
theorem fullDecodeIsInterp : Obligations.FullDecodeIsInterp := by
  intro s f hframe hf
  exact ⟨fun hshape => exists_fullImage_interpText hframe hf hshape false,
    fun hshape => exec_fullCommand_of_not_fullShape hframe hshape false⟩

/-- Settles O20: DECODE_FULL_DUP is the full decode with dup = true. -/
theorem fullDupDecodeIsInterp : Obligations.FullDupDecodeIsInterp := by
  intro s f hframe hf
  exact ⟨fun hshape => exists_fullImage_interpText hframe hf hshape true,
    fun hshape => exec_fullCommand_of_not_fullShape hframe hshape true⟩

/-- Settles O28: every element is the mean of one to four samples, and here all of them are v. -/
theorem constantFrameStaysConstant : Obligations.ConstantFrameStaysConstant := by
  intro dup s f v hframe hf hshape hconst
  obtain ⟨img, himg, -⟩ := exists_fullImage hframe hf hshape dup
  refine ⟨img, himg, fun e he => ?_⟩
  obtain ⟨hexec, -⟩ := himg
  obtain ⟨b, rfl, hb⟩ := decoderOf_isMean ((exec_eq_completed hframe).mp hexec) he
  rw [hb.eq_f64_of_constant hconst]

end Sys2Proof.Machine
end

section
/-!
PROOFS. What LOAD_FRAME, WRITE, READ and READ_OUT do, one lemma per clause of their rules (44_external_interface R150 to
R154).
-/
namespace Sys2Proof.Machine

variable {p : Params} {s : State} {ny nx n r c k : Nat} {v : List Nat} {img : Image}

/-! ## LOAD_FRAME (R150): the four faults, in the order of the rule, and the installed frame -/

theorem loadFrame_of_busy (hb : s.busy = true) : loadFrame p ny nx v s = s.recordFault .loadWhileBusy :=
  if_pos hb

theorem loadFrame_of_too_large (hb : s.busy = false) (h : p.maxNy < ny ∨ p.maxNx < nx) :
    loadFrame p ny nx v s = s.recordFault (.frameTooLarge ny nx) := by
  simp [loadFrame, hb, h]

theorem loadFrame_of_wrong_length (hb : s.busy = false) (hny : ny ≤ p.maxNy) (hnx : nx ≤ p.maxNx)
    (hlen : v.length ≠ ny * nx) : loadFrame p ny nx v s = s.recordFault (.frameShape ny nx v.length) := by
  simp [loadFrame, hb, hny.not_gt, hnx.not_gt, hlen]

theorem loadFrame_of_sample_out_of_range (hb : s.busy = false) (hny : ny ≤ p.maxNy) (hnx : nx ≤ p.maxNx)
    (hlen : v.length = ny * nx) (hbad : badSamples p v ≠ []) :
    loadFrame p ny nx v s = s.recordFault (.sampleOutOfRange (pickedBadSample (badSamples p v))) := by
  simp [loadFrame, hb, hny.not_gt, hnx.not_gt, hlen, hbad]

theorem loadFrame_of_accepted (h : LoadAccepted p ny nx v s) :
    loadFrame p ny nx v s = s.installFrame ⟨ny, nx, v⟩ := by
  obtain ⟨hb, hny, hnx, hlen, hrange⟩ := h
  simp [loadFrame, hb, hny.not_gt, hnx.not_gt, hlen, badSamples_eq_nil.mpr hrange]

/-- A sample out of range is what makes the list of offending indices non-empty. -/
theorem badSamples_ne_nil (h : ∃ x ∈ v, 2 ^ p.sampleBits ≤ x) : badSamples p v ≠ [] := by
  obtain ⟨x, hx, hle⟩ := h
  exact fun hnil => hle.not_gt (badSamples_eq_nil.mp hnil x hx)

/-- NY and NX hold the shape of an accepted frame: the capacity is below 2^32 (R27, R28, assumption 9). -/
theorem LoadAccepted.shape_registers (hp : p.Legal) (h : LoadAccepted p ny nx v s) :
    (s.installFrame ⟨ny, nx, v⟩).ny.toNat = ny ∧ (s.installFrame ⟨ny, nx, v⟩).nx.toNat = nx := by
  obtain ⟨-, ⟨-, -, hmaxNy⟩, ⟨-, -, hmaxNx⟩⟩ := hp
  simp only [State.installFrame_ny, State.installFrame_nx, BitVec.toNat_ofNat]
  exact ⟨Nat.mod_eq_of_lt (h.ny_le.trans_lt hmaxNy), Nat.mod_eq_of_lt (h.nx_le.trans_lt hmaxNx)⟩

/-! ## WRITE (R151, R152); an accepted write of CMD is `writeReg_zero_accepted` -/

theorem writeReg_zero_of_busy (hb : s.busy = true) (w : Word) :
    writeReg 0 w s = s.recordFault (.cmdWhileBusy w) := by
  simp [writeReg, writeCmd, hb]

theorem writeReg_zero_of_no_frame (hb : s.busy = false) (hframe : s.mem.frame = none) (w : Word) :
    writeReg 0 w s = s.recordFault (.noFrame w) := by
  simp [writeReg, writeCmd, hb, hframe]

theorem writeReg_of_ne_zero (hn : n ≠ 0) (w : Word) :
    writeReg n w s = s.recordFault (if n < 4 then .writeReadOnly n else .noSuchRegister n) := by
  rw [writeReg, if_neg hn]
  split_ifs <;> rfl

/-! ## READ (R153) and the word STATUS reads as (R26) -/

theorem readReg_of_four_le (hn : 4 ≤ n) : s.readReg n = none := by
  obtain ⟨m, rfl⟩ := Nat.exists_eq_add_of_le' hn
  rfl

theorem readRegister_of_none (h : s.readReg n = none) : readRegister n s = s.recordFault (.noSuchRegister n) := by
  simp only [readRegister, h]

/-- The bits of STATUS outside STATE and ERR read as 0 (R26). -/
theorem statusRead_getLsbD (w : Word) {b : Nat} (hb : b < 32) :
    (statusRead w).getLsbD b = if b < 2 ∨ (4 ≤ b ∧ b < 8) then w.getLsbD b else false := by
  have hmask : ∀ b < 32, (0x000000F3 : Word).getLsbD b = decide (b < 2 ∨ (4 ≤ b ∧ b < 8)) := by decide
  rw [statusRead, BitVec.getLsbD_and, hmask b hb]
  split_ifs with h
  · rw [decide_eq_true h, Bool.and_true]
  · rw [decide_eq_false h, Bool.and_false]

theorem statusState_statusRead (w : Word) : statusState (statusRead w) = statusState w := by
  have hfield : (statusRead w).extractLsb' 0 2 = w.extractLsb' 0 2 := by
    rw [statusRead, BitVec.extractLsb'_and]
    exact BitVec.and_allOnes
  simp only [statusState, hfield]

theorem statusErr_statusRead (w : Word) : statusErr (statusRead w) = statusErr w := by
  rw [statusErr, statusRead, BitVec.extractLsb'_and]
  exact BitVec.and_allOnes

/-! ## READ_OUT (R154) in state DONE and outside it; outside the image it is `readOut_outside` -/

theorem readOut_of_not_ready (h : s.done = false ∨ s.mem.image = none) :
    readOut r c k s = .next (s.recordFault (.outNotReady r c k)) := by
  unfold readOut
  split
  next img hdone himg => simp [hdone, himg] at h
  next => rfl

/-- A fully populated image lists an element at every index inside its shape, since no host action then stops. -/
theorem readOut_inside (hdone : s.done = true) (himg : s.mem.image = some img)
    (hfull : img.elems.length = img.rows * img.cols * 3) (hr : r < img.rows) (hc : c < img.cols) (hk : k < 3) :
    ∃ e, img.element r c k = some e ∧ readOut r c k s = .next (s.reply (.element r c k e)) := by
  have hin : ¬(img.rows ≤ r ∨ img.cols ≤ c ∨ 3 ≤ k) := by omega
  have hfull' : ∀ img', s.mem.image = some img' → img'.elems.length = img'.rows * img'.cols * 3 := by
    rintro img' himg'
    rwa [← Option.some.inj (himg.symm.trans himg')]
  obtain ⟨t, ht⟩ := hostAct_isNext (p := Config.params) (a := .readOut r c k) hfull'
  simp only [hostAct, readOut, hdone, himg, if_neg hin] at ht ⊢
  cases he : img.element r c k with
  | some e => exact ⟨e, rfl, rfl⟩
  | none => simp [he] at ht

end Sys2Proof.Machine
end

section
/-!
PROOFS. ENGINE's step on the command in CMD (44_external_interface R155, R156), the command that withFetchWord places
(assumption 10), and why BUSY ends (R159): while BUSY, each step leaves BUSY or uses up one of the turns left.
-/
namespace Sys2Proof.Machine

variable {s t : State} {i : Instr}

/-! ## The command in CMD -/

/-- The decoded command is what ENGINE's step executes (R155). -/
theorem engineStep_of_decode (h : decode s.cmd = .ok i) : engineStep s = exec i s := by
  simp only [engineStep, h]

theorem engineTurn_of_not_busy (hb : s.busy = false) : engineTurn s = .next s := by
  simp [engineTurn, hb]

theorem exec_of_no_frame (i : Instr) (h : s.mem.frame = none) : exec i s = .fault .noFrameInEngine := by
  simp only [exec_eq_runDecoder, runDecoder, h]

/-! ## A reset event and a read-back (R190, R80) -/

theorem step_reset {rest : List Event} (hp : s.pending = .reset :: rest) :
    step s = .next (State.resetEvent { s with pending := rest }) := by
  simp only [step, turn, hp]

theorem step_readBack {rows cols : Nat} {rest : List Event} (hp : s.pending = .readBack rows cols :: rest) :
    step s = .next (readBackTurn rows cols rest s) := by
  simp only [step, turn, hp]

/-- A read-back that does not find DONE is one read of STATUS. -/
theorem readBackTurn_of_busy (hb : s.busy = true) (rows cols : Nat) (rest : List Event) :
    readBackTurn rows cols rest s = { poll s with pending := rest } := by
  have hstate : statusState s.status = .busy := beq_iff_eq.mp hb
  simp [readBackTurn, State.done, hstate]

/-! ## The placed command (assumption 10) -/

theorem withFetchWord_encode (s : State) (i : Instr) :
    s.withFetchWord 32 (encode i).toNat = s.placeCommand (encode i) := by
  rw [State.withFetchWord, BitVec.toNat_mod_cancel, BitVec.ofNat_toNat, BitVec.setWidth_eq]

@[simp] theorem State.placeCommand_cmd (s : State) (w : Word) : (s.placeCommand w).cmd = w := rfl
@[simp] theorem State.placeCommand_pending (s : State) (w : Word) : (s.placeCommand w).pending = [] := rfl
@[simp] theorem State.placeCommand_busy (s : State) (w : Word) : (s.placeCommand w).busy = true := rfl

/-- A state without a frame gets the placed one. -/
theorem State.placeCommand_frame_isSome (s : State) (w : Word) : (s.placeCommand w).mem.frame.isSome = true := by
  cases h : s.mem.frame <;> simp [State.placeCommand, h]

/-! ## The end of BUSY (R159) -/

/-- ENGINE's step completes a command or refuses its word, so it leaves BUSY (R157, R158). -/
theorem engineStep_leaves_busy (h : engineStep s = .next t) : t.busy = false := by
  rcases engineStep_cases h with ⟨_, _, result, -, -, -, rfl⟩ | ⟨-, rfl⟩
  · cases result <;> simp [State.busy, State.complete]
  · simp [State.busy]

/-- While BUSY a host action can only record a fault or hand back a value, so its event alone is used up (R194). -/
theorem hostAct_pending_of_busy {p : Params} {a : HostAction} (hb : s.busy = true) (h : hostAct p a s = .next t) :
    t.pending = s.pending := by
  rcases hostAct_cases h with ⟨e, rfl⟩ | ⟨r, rfl⟩ | ⟨_, _, _, -, hacc, -⟩ | ⟨_, -, hnb, -⟩
  · rfl
  · rfl
  · exact absurd hb (by simp [hacc.not_busy])
  · exact absurd hb (by simp [hnb])

/-! One turn is counted for an event, and for a WAIT one more than its polls before ENGINE's step. -/

theorem turnsLeft_host (a : HostAction) (rest : List Event) :
    Claims.turnsLeft (.host a :: rest) = Claims.turnsLeft rest + 1 := rfl
theorem turnsLeft_wait (spins : Nat) (rest : List Event) : Claims.turnsLeft (.wait spins :: rest) = spins + 1 := rfl
theorem turnsLeft_readBack (rows cols : Nat) (rest : List Event) :
    Claims.turnsLeft (.readBack rows cols :: rest) = Claims.turnsLeft rest + 1 := rfl

theorem turnsLeft_pos (es : List Event) : 0 < Claims.turnsLeft es := by
  unfold Claims.turnsLeft
  split <;> omega

/-- A step from BUSY leaves BUSY or uses up one of the turns left. -/
theorem step_of_busy (hb : s.busy = true) (h : step s = .next t) :
    t.busy = false ∨ Claims.turnsLeft t.pending + 1 = Claims.turnsLeft s.pending := by
  cases hp : s.pending with
  | nil =>
    rw [step_nothing_pending hp, engineTurn_of_busy hb] at h
    exact .inl (engineStep_leaves_busy h)
  | cons e rest =>
    cases e with
    | engine =>
      rw [step_engine hp, engineTurn_of_busy (s := { s with pending := rest }) hb] at h
      exact .inl (engineStep_leaves_busy h)
    | reset =>
      cases (step_reset hp).symm.trans h
      exact .inl rfl
    | host a =>
      rw [step_host hp] at h
      have hrest := hostAct_pending_of_busy (s := { s with pending := rest }) hb h
      exact .inr (by rw [hrest, turnsLeft_host])
    | readBack rows cols =>
      rw [step_readBack hp, readBackTurn_of_busy hb] at h
      cases h
      exact .inr (turnsLeft_readBack rows cols rest).symm
    | wait spins =>
      rw [step_wait hp] at h
      cases spins with
      | zero =>
        rw [waitTurn_zero_of_busy hb] at h
        exact .inl (engineStep_leaves_busy h)
      | succ n =>
        rw [waitTurn_succ_of_busy hb] at h
        cases h
        exact .inr (by rw [turnsLeft_wait, turnsLeft_wait])

/-- The first of several steps, taken. -/
theorem run_succ_of_step {M : Host.Core} {s t : M.State} (h : M.step s = .next t) (n : Nat) :
    M.run (n + 1) s = M.run n t := by
  rw [Host.Core.run, h]

/-- Under the invariant no step stops and every step keeps it, so BUSY ends within the turns left. -/
theorem run_leaves_busy {m : Nat} (hm : Claims.turnsLeft s.pending ≤ m) (hs : s.Inv Config.params)
    (hb : s.busy = true) :
    ∃ n t, n ≤ m ∧ Host.Core.run Sys2Proof.core n s = .next t ∧ t.busy = false := by
  induction m generalizing s with
  | zero => exact absurd (turnsLeft_pos s.pending) hm.not_gt
  | succ m ih =>
    obtain ⟨t, hstep⟩ := stepNeverStopsUnderTheInvariant s hs
    have hrun := run_succ_of_step (M := Sys2Proof.core) hstep
    cases htb : t.busy with
    | false => exact ⟨1, t, by omega, hrun 0, htb⟩
    | true =>
      have hturns := (step_of_busy hb hstep).resolve_left (by simp [htb])
      obtain ⟨n, u, hn, hu, hub⟩ := ih (by omega) (stepKeepsTheInvariant s t hs hstep) htb
      exact ⟨n + 1, u, by omega, (hrun n).trans hu, hub⟩

end Sys2Proof.Machine
end

section
/-!
PROOFS. The settled statements about the external interface (44_external_interface).
-/
namespace Sys2Proof.Machine

/-- Settles O33: LOAD_FRAME clause by clause; the frame it installs fits NY and NX. -/
theorem loadFrameInstallsOrFaults : Obligations.LoadFrameInstallsOrFaults := by
  intro s ny nx v rest hp
  rw [step_host hp]
  let s' : State := { s with pending := rest }
  refine ⟨fun hb => ?_, fun hb hbig => ?_, fun hb hny hnx hlen => ?_, fun hb hny hnx hlen hbad => ?_,
    fun hb hny hnx hlen hrange => ?_⟩
  · exact congrArg Host.Outcome.next (loadFrame_of_busy (s := s') hb)
  · exact congrArg Host.Outcome.next (loadFrame_of_too_large (s := s') hb hbig)
  · exact congrArg Host.Outcome.next (loadFrame_of_wrong_length (s := s') hb hny hnx hlen)
  · have hne := badSamples_ne_nil hbad
    obtain ⟨x, hx, hle⟩ := pickedBadSample_spec hne
    exact ⟨_, x, hx, hle,
      congrArg Host.Outcome.next (loadFrame_of_sample_out_of_range (s := s') hb hny hnx hlen hne)⟩
  · have hacc : LoadAccepted Config.params ny nx v s' := ⟨hb, hny, hnx, hlen, hrange⟩
    obtain ⟨hnyReg, hnxReg⟩ := hacc.shape_registers Config.params_legal
    have hload := loadFrame_of_accepted hacc
    exact ⟨_, congrArg Host.Outcome.next hload, rfl, hnyReg, hnxReg, rfl, rfl, rfl, rfl, rfl, rfl⟩

/-- Settles O36: the four registers by name, STATUS through its mask, and no fifth. -/
theorem readReturnsTheRegister : Obligations.ReadReturnsTheRegister := by
  intro s n rest hp
  rw [step_host hp]
  refine ⟨?_, ?_, ?_, ?_, fun hn => ?_⟩
  · rintro rfl
    rfl
  · rintro rfl
    exact ⟨statusRead s.status, rfl, fun b hb => statusRead_getLsbD s.status hb, statusState_statusRead s.status,
      statusErr_statusRead s.status⟩
  · rintro rfl
    rfl
  · rintro rfl
    rfl
  · exact congrArg Host.Outcome.next (readRegister_of_none (readReg_of_four_le hn))

/-- Settles O37: a READ_OUT before the result, outside the image, and inside it. -/
theorem readOutReturnsTheElement : Obligations.ReadOutReturnsTheElement := by
  intro s r c k rest hp
  rw [step_host hp]
  let s' : State := { s with pending := rest }
  refine ⟨fun h => ?_, fun img hdone himg hfull => ?_⟩
  · exact readOut_of_not_ready (s := s') (h.imp_left fun hne => beq_eq_false_iff_ne.mpr hne)
  · have hdone' : s'.done = true := beq_iff_eq.mpr hdone
    exact ⟨readOut_outside hdone' himg, readOut_inside hdone' himg hfull⟩

/-- Settles O50: every step from BUSY leaves BUSY or uses up one of the turns left. -/
theorem busyEndsWithinTheTurnsLeft : Obligations.BusyEndsWithinTheTurnsLeft :=
  fun _ hs hb => run_leaves_busy le_rfl hs hb

/-- Settles O7: each of ENGINE's turns while BUSY is its step, which executes the decoded command. -/
theorem stepRunsTheDecodedCommand : Obligations.StepRunsTheDecodedCommand := by
  intro s i hb hi
  refine ⟨fun hp => ?_, fun rest hp => ?_, fun rest hp => ?_⟩
  · rw [step_nothing_pending hp, engineTurn_of_busy hb, engineStep_of_decode hi]
  · rw [step_engine hp, engineTurn_of_busy (s := { s with pending := rest }) hb]
    exact engineStep_of_decode hi
  · rw [step_wait hp, waitTurn_zero_of_busy hb, engineStep_of_decode hi]

/-- Settles O8: the placed state is BUSY with nothing pending and the command's own word in CMD. -/
theorem placedCommandRunsNext : Obligations.PlacedCommandRunsNext := by
  intro s i
  rw [withFetchWord_encode]
  have hbusy := s.placeCommand_busy (encode i)
  obtain ⟨hrun, -, -⟩ := stepRunsTheDecodedCommand (s.placeCommand (encode i)) i hbusy (decode_encode i)
  exact ⟨hrun (s.placeCommand_pending _), s.placeCommand_cmd _, hbusy, s.placeCommand_frame_isSome _⟩

/-- Settles O9: ENGINE's turn passes outside BUSY. -/
theorem engineIdlesUnlessBusy : Obligations.EngineIdlesUnlessBusy := by
  intro s hb
  refine ⟨fun hp => ?_, fun rest hp => ?_⟩
  · rw [step_nothing_pending hp, engineTurn_of_not_busy hb]
  · exact (step_engine hp).trans (engineTurn_of_not_busy hb)

/-- Settles O13: every command runs its decoder on the frame in IN, and stops without one. -/
theorem commandWithoutFrameStops : Obligations.CommandWithoutFrameStops :=
  fun i _ => exec_of_no_frame i

/-- Settles O34: the two faults of a WRITE of CMD, and the accepted one. -/
theorem writeCmdStartsOrFaults : Obligations.WriteCmdStartsOrFaults := by
  intro s w rest hp
  rw [step_host hp]
  let s' : State := { s with pending := rest }
  refine ⟨fun hb => ?_, fun hb hnone => ?_, fun hb hframe => ?_⟩
  · exact congrArg Host.Outcome.next (writeReg_zero_of_busy (s := s') hb w)
  · exact congrArg Host.Outcome.next (writeReg_zero_of_no_frame (s := s') hb hnone w)
  · have hsome := Option.isSome_iff_ne_none.mpr hframe
    exact congrArg Host.Outcome.next (writeReg_zero_accepted (s := s') hb hsome w)

/-- Settles O35: a WRITE of another register only records its fault. -/
theorem otherWritesOnlyFault : Obligations.OtherWritesOnlyFault := by
  intro s n w rest hp hn
  rw [step_host hp]
  exact congrArg Host.Outcome.next (writeReg_of_ne_zero hn w)

end Sys2Proof.Machine
end

section
/-!
PROOFS. What a whole run keeps (44_external_interface R160), and the writes that reach CMD by the shape of their event
(20_memory R56).
-/
namespace Sys2Proof.Machine

/-! ## Runs -/

/-- A run of several steps that does not stop is a step that does not stop and a run from there. -/
theorem run_succ_eq_next {M : Host.Core} {n : Nat} {s t : M.State} :
    M.run (n + 1) s = .next t ↔ ∃ u, M.step s = .next u ∧ M.run n u = .next t := by
  cases hstep : M.step s <;> simp [Host.Core.run, hstep]

/-- What every step keeps, every run keeps. -/
theorem run_keeps {M : Host.Core} {P : M.State → Prop} (hkeep : ∀ s t, P s → M.step s = .next t → P t) {n : Nat}
    {s t : M.State} (hs : P s) (h : M.run n s = .next t) : P t := by
  induction n generalizing s with
  | zero =>
    cases h
    exact hs
  | succ n ih =>
    obtain ⟨u, hstep, hrun⟩ := run_succ_eq_next.mp h
    exact ih (hkeep s u hs hstep) hrun

/-- The record only grows (R179), so once a fault is in it, it is not empty again. -/
theorem step_keeps_faults_ne_nil (s t : State) (hs : s.faults ≠ []) (h : step s = .next t) : t.faults ≠ [] := by
  obtain ⟨more, hmore⟩ := faultRecordOnlyGrows s t h
  rw [hmore]
  exact List.append_ne_nil_of_left_ne_nil hs more

theorem State.success_eq_false_of_faults {s : State} (h : s.faults ≠ []) : s.success = false := by
  simp [State.success, h]

/-! ## The writes of CMD -/

/-- A write that reaches CMD is a WRITE of register 0 or a bus write at REG_BASE. -/
theorem WritesCmd.eq_write_or_busWrite {p : Params} {w : Word} {a : HostAction} (h : WritesCmd p w a) :
    a = .write 0 w ∨ ∃ bytes, a = .busWrite p.regBase bytes := by
  cases a with
  | write n w' =>
    obtain ⟨rfl, rfl⟩ := h
    exact .inl rfl
  | busWrite addr bytes =>
    obtain ⟨rfl, -, -⟩ := h
    exact .inr ⟨bytes, rfl⟩
  | loadFrame | read | readOut | busRead => exact h.elim

end Sys2Proof.Machine
end

section
/-!
PROOFS. The settled statements about errors and host faults (60_exceptions).
-/
namespace Sys2Proof.Machine

/-- Settles O43: of the updates of a step only an accepted command, a completion (from BUSY) and a reset write STATUS or
OUT. -/
theorem resultStandsUntilTheNextCommand : Obligations.ResultStandsUntilTheNextCommand := by
  intro s t hstep hb hreset hwrite hbus
  have hnb : s.busy ≠ true := ne_true_of_eq_false hb
  obtain ⟨rest, heff⟩ := step_effect hstep
  cases heff with
  | start a w hp hw =>
    rcases hw.eq_write_or_busWrite with rfl | ⟨bytes, rfl⟩
    · exact absurd hp (hwrite w rest)
    · exact absurd hp (hbus bytes rest)
  | finish i f result busy => exact absurd busy hnb
  | refuse e busy => exact absurd busy hnb
  | reset hp => exact absurd hp (hreset rest)
  | pass | fault | reply | load => exact ⟨rfl, rfl⟩

/-- Settles O46: every step keeps the record non-empty, so every run does, and success asks for an empty one. -/
theorem runWithAFaultNeverSucceeds : Obligations.RunWithAFaultNeverSucceeds :=
  fun _ _ _ hs hrun =>
    State.success_eq_false_of_faults (run_keeps (M := Sys2Proof.core) step_keeps_faults_ne_nil hs hrun)

end Sys2Proof.Machine
end

section
/-!
PROOFS. The settled statements about reset and hazards (70_reset_and_hazards): a reset event, and the host's actions
while BUSY.
-/
namespace Sys2Proof.Machine

variable {p : Params} {s t : State} {a : HostAction}

/-- BUSY and DONE are different values of STATE (R26). -/
theorem State.not_done_of_busy (hb : s.busy = true) : s.done = false := by
  have hstate : statusState s.status = .busy := beq_iff_eq.mp hb
  simp [State.done, hstate]

/-- Installing a frame and starting a command ask for a state outside BUSY, so while BUSY a host action that does not
stop records a fault or hands back a value (R194). -/
theorem hostAct_cases_of_busy (hb : s.busy = true) (h : hostAct p a s = .next t) :
    (∃ e, t = s.recordFault e) ∨ ∃ r, t = s.reply r := by
  rcases hostAct_cases h with hfault | hreply | ⟨_, _, _, -, hacc, -⟩ | ⟨_, -, hnb, -⟩
  · exact .inl hfault
  · exact .inr hreply
  · exact absurd hb (by simp [hacc.not_busy])
  · exact absurd hb (by simp [hnb])

/-- While BUSY a host action writes no register and no buffer (R193, R194). -/
theorem hostAct_frame_of_busy (hb : s.busy = true) (h : hostAct p a s = .next t) :
    t.cmd = s.cmd ∧ t.status = s.status ∧ t.ny = s.ny ∧ t.nx = s.nx ∧ t.mem = s.mem := by
  rcases hostAct_cases_of_busy hb h with ⟨e, rfl⟩ | ⟨r, rfl⟩
  · exact ⟨rfl, rfl, rfl, rfl, rfl⟩
  · exact ⟨rfl, rfl, rfl, rfl, rfl⟩

/-! The three actions that are always a fault while BUSY (R193, R194, R154). -/

theorem hostAct_loadFrame_of_busy (hb : s.busy = true) (ny nx : Nat) (v : List Nat) :
    hostAct p (.loadFrame ny nx v) s = .next (s.recordFault .loadWhileBusy) :=
  congrArg Host.Outcome.next (loadFrame_of_busy hb)

theorem hostAct_writeCmd_of_busy (hb : s.busy = true) (w : Word) :
    hostAct p (.write 0 w) s = .next (s.recordFault (.cmdWhileBusy w)) :=
  congrArg Host.Outcome.next (writeReg_zero_of_busy hb w)

theorem hostAct_readOut_of_busy (hb : s.busy = true) (r c k : Nat) :
    hostAct p (.readOut r c k) s = .next (s.recordFault (.outNotReady r c k)) :=
  readOut_of_not_ready (.inl (State.not_done_of_busy hb))

/-- Settles O6: the step is the reset event, which takes every register and buffer from the reset state. -/
theorem resetEventRestoresAllButFaults : Obligations.ResetEventRestoresAllButFaults :=
  fun _ _ hp => step_reset hp

/-- Settles O44: while BUSY a host action only adds a fault or a reply, and three of them always add their fault. -/
theorem busyBlocksEveryHostAction : Obligations.BusyBlocksEveryHostAction := by
  intro s t a rest hp hb hstep
  rw [step_host hp] at hstep
  have hb' : State.busy { s with pending := rest } = true := hb
  obtain ⟨hcmd, hstatus, hny, hnx, hmem⟩ := hostAct_frame_of_busy hb' hstep
  refine ⟨hcmd, hstatus, hny, hnx, hmem, hostAct_pending_of_busy hb' hstep, ?_, ?_, ?_⟩
  · rintro ny nx v rfl
    cases (hostAct_loadFrame_of_busy hb' ny nx v).symm.trans hstep
    rfl
  · rintro w rfl
    cases (hostAct_writeCmd_of_busy hb' w).symm.trans hstep
    rfl
  · rintro r c k rfl
    cases (hostAct_readOut_of_busy hb' r c k).symm.trans hstep
    rfl

end Sys2Proof.Machine
end
